-- ==== Sys2Proof/Word.lean ====
section
/-! DEFINITION. The widths of the values the block moves: spec/00_scope.md R13, R14 and R16,
spec/20_memory.md R49. Every value is an unsigned integer of a stated width. -/

namespace Sys2Proof

/-- A byte, bits 7 to 0 (R13). -/
abbrev Byte := BitVec 8

/-- A register address of the remote chip, `ADDR_W = 7` bits (R11). -/
abbrev Address := BitVec 7

/-- Register data, `DATA_W = 24` bits (R11). -/
abbrev Data := BitVec 24

/-- A command or response word, `WORD_W = 32` bits (R11, R60). -/
abbrev CommandWord := BitVec 32

/-- A 16-bit sample slot (R72). -/
abbrev Sample := BitVec 16

/-- A frame: a sequence of sample slots, `FRAME_LEN` of them when well formed (R26, R73). -/
abbrev Frame := List Sample

/-- The operation code of a command, 4 bits (R74). -/
abbrev OpCode := BitVec 4

end Sys2Proof
end

