-- ==== Sys2Proof/Config.lean ====
section
/-! DEFINITION. The implementation parameters of spec/00_scope.md R11 and when a configuration is well
formed (R12, spec/30_encoding.md R62). A parameter is fixed for the lifetime of a configuration and is no
state. No instruction of the spec has an undefined result, so there is no free value here. -/

namespace Sys2Proof

/-- `LAYOUT = (ADDR_POS, WR_POS, DATA_POS)`: where the three fields of a command word lie (R62). -/
structure Layout where
  addrPos : Nat
  wrPos : Nat
  dataPos : Nat
deriving DecidableEq, Repr

/-- The `wa` bits from position `a` up and the `wb` bits from position `b` up have no bit in common. -/
abbrev Layout.Apart (a wa b wb : Nat) : Prop := a + wa ≤ b ∨ b + wb ≤ a

/-- The fields, 7, 1 and 24 bits wide, are disjoint and lie inside `[31:0]` (R62). -/
abbrev Layout.WF (l : Layout) : Prop :=
  l.addrPos + 7 ≤ 32 ∧ l.wrPos + 1 ≤ 32 ∧ l.dataPos + 24 ≤ 32 ∧
  Layout.Apart l.addrPos 7 l.wrPos 1 ∧ Layout.Apart l.addrPos 7 l.dataPos 24 ∧
  Layout.Apart l.wrPos 1 l.dataPos 24

/-- This spec's layout: address [31:25], write bit [24], data [23:0] (R61). The values come from general
knowledge, spec/93_implementation_defined.md G1 (log 16). -/
def Layout.spec : Layout := { addrPos := 25, wrPos := 24, dataPos := 0 }

/-- The parameters of R11 that have more than one legal value. -/
structure Config where
  /-- `LAYOUT` -/
  layout : Layout
  /-- `BURST_CMD`, one byte -/
  burstCmd : Byte
  /-- `SADR_POS` -/
  sadrPos : Nat
  /-- `LFSR_W` -/
  lfsrW : Nat
  /-- `LFSR_SEED` -/
  lfsrSeed : Nat
  /-- `CAPACITY` -/
  capacity : Nat
  /-- `FRAME_LEN` -/
  frameLen : Nat
  /-- `CURSOR_W` -/
  cursorW : Nat
  /-- `SLICE_SIZE` -/
  sliceSize : Nat
deriving DecidableEq, Repr

/-- A well-formed configuration: every parameter in its legal range, the seed non-zero and of `LFSR_W`
bits, `CAPACITY < 2^CURSOR_W`, and the layout's fields disjoint (R11, R12). -/
abbrev Config.WF (c : Config) : Prop :=
  c.layout.WF ∧ c.sadrPos ≤ 25 ∧ (c.lfsrW = 12 ∨ c.lfsrW = 16) ∧
  1 ≤ c.lfsrSeed ∧ c.lfsrSeed < 2 ^ c.lfsrW ∧
  1 ≤ c.capacity ∧ 1 ≤ c.frameLen ∧ 1 ≤ c.cursorW ∧ c.capacity < 2 ^ c.cursorW

/-- The configuration `State.reset` carries. `LAYOUT`, `BURST_CMD`, `SADR_POS`, `LFSR_W`, `CAPACITY` and
`CURSOR_W` are this spec's values or defaults (R11). `LFSR_SEED`, `FRAME_LEN` and `SLICE_SIZE` are open in
the spec: the values of its test vectors stand here (DESIGN CHOICE, log 2). -/
def Config.default : Config :=
  { layout := Layout.spec, burstCmd := 0xFF#8, sadrPos := 17, lfsrW := 12, lfsrSeed := 1,
    capacity := 5, frameLen := 2, cursorW := 64, sliceSize := 2 }

/-- The length in bytes of a raw slice and of the burst transfer that fetches it (R69, R70). -/
def Config.sliceBytes (c : Config) : Nat := 4 + 3 * c.sliceSize

end Sys2Proof
end

