-- ==== Sys2Proof/Syntax.lean ====
section
/-! DEFINITION. The commands of spec/30_encoding.md Part B: one constructor of `Instr` per row of
spec/opcode_table.json. A command is a record of its issuing agent, its operation code and the operands
that code requires (R74, R75). -/

namespace Sys2Proof

/-- The three agents of R9. -/
inductive Agent where
  /-- P, the acquisition thread -/
  | producer
  /-- C, the consumer thread -/
  | consumer
  /-- H, the caller outside a running session -/
  | host
deriving DecidableEq, Repr

/-- An operand value as a command carries it: a natural number or a sequence of them. Operands are typed
values, not bit fields of a word (R74, R79). A number may lie outside its operand's width; it is then refused
and never truncated (R16, log 9). -/
inductive Operand where
  | num (v : Nat)
  | seq (vs : List Nat)
deriving DecidableEq, Repr

/-- A command of one agent. The first argument of each constructor is the issuing agent (R74); the others are
the operands of R75 in its order. -/
inductive Instr where
  /-- 0x0, R230 -/
  | sessionReset (a : Agent)
  /-- 0x1, R102 -/
  | codecWrite (a : Agent) (address value : Nat)
  /-- 0x2, R104 -/
  | codecReadReq (a : Agent) (address : Nat)
  /-- 0x3, R106: the operand `rx[0..3]` -/
  | codecReadResp (a : Agent) (rx0 rx1 rx2 rx3 : Nat)
  /-- 0x4, R108 -/
  | codecBurstReq (a : Agent) (startAddress : Nat)
  /-- 0x5, R131 -/
  | unpack3 (a : Agent) (b0 b1 b2 : Nat)
  /-- 0x6, R133 -/
  | unpackRun (a : Agent) (bytes : List Nat)
  /-- 0x7, R135 -/
  | unpackSlice (a : Agent) (slice : List Nat)
  /-- 0x8, R150 -/
  | lfsrReseed (a : Agent)
  /-- 0x9, R151 -/
  | lfsrNext (a : Agent)
  /-- 0xA, R174 -/
  | rbPush (a : Agent) (frame : List Nat)
  /-- 0xB, R179 -/
  | rbPop (a : Agent)
  /-- 0xC, R185 -/
  | rbFill (a : Agent)
  /-- 0xD, R186 -/
  | rbWait (a : Agent) (n : Nat)
  /-- 0xE, R184 -/
  | rbStatus (a : Agent)
  /-- 0xF, R77 and R202: whatever operands came with the reserved code -/
  | reserved0xF (a : Agent) (operands : List Operand)
deriving DecidableEq, Repr

/-- The issuing agent of a command. -/
def Instr.agent : Instr → Agent
  | .sessionReset a => a
  | .codecWrite a _ _ => a
  | .codecReadReq a _ => a
  | .codecReadResp a _ _ _ _ => a
  | .codecBurstReq a _ => a
  | .unpack3 a _ _ _ => a
  | .unpackRun a _ => a
  | .unpackSlice a _ => a
  | .lfsrReseed a => a
  | .lfsrNext a => a
  | .rbPush a _ => a
  | .rbPop a => a
  | .rbFill a => a
  | .rbWait a _ => a
  | .rbStatus a => a
  | .reserved0xF a _ => a

end Sys2Proof
end

