-- ==== Sys2Proof/WellFormed.lean ====
section
/-! DEFINITION. When a command's operands lie in their stated widths: spec/00_scope.md R16,
spec/41_codec.md R101, spec/60_exceptions.md R203. Lengths (R204) depend on the configuration or are the
operation's own check, so they are not part of it. -/

namespace Sys2Proof

/-- Every operand of the command is a value of its stated width: address 7 bits, data 24 bits, byte 8 bits,
sample 16 bits; a count is any natural (R16). -/
def Instr.wellFormed : Instr → Bool
  | .sessionReset _ => true
  | .codecWrite _ address value => decide (address < 2 ^ 7) && decide (value < 2 ^ 24)
  | .codecReadReq _ address => decide (address < 2 ^ 7)
  | .codecReadResp _ rx0 rx1 rx2 rx3 => [rx0, rx1, rx2, rx3].all (fun v => decide (v < 2 ^ 8))
  | .codecBurstReq _ startAddress => decide (startAddress < 2 ^ 7)
  | .unpack3 _ b0 b1 b2 => [b0, b1, b2].all (fun v => decide (v < 2 ^ 8))
  | .unpackRun _ bytes => bytes.all (fun v => decide (v < 2 ^ 8))
  | .unpackSlice _ slice => slice.all (fun v => decide (v < 2 ^ 8))
  | .lfsrReseed _ => true
  | .lfsrNext _ => true
  | .rbPush _ frame => frame.all (fun v => decide (v < 2 ^ 16))
  | .rbPop _ => true
  | .rbFill _ => true
  | .rbWait _ _ => true
  | .rbStatus _ => true
  | .reserved0xF _ _ => true

end Sys2Proof
end

