-- ==== Sys2Proof/Decode.lean ====
section
/-! DEFINITION. The operation map of spec/30_encoding.md R75 and R77: which command an operation code and
its operands are, the agents each code admits, and the encoder. The code is 4 bits; the operands are typed
values with no bit positions (R74, log 8). -/

namespace Sys2Proof

/-- A command as an agent puts it on its port: the operation code and the operand values. The port tells the
issuing agent. -/
structure Command where
  op : OpCode
  operands : List Operand
deriving DecidableEq, Repr

/-- Why a record is no command of R75. -/
inductive DecodeError where
  /-- the operands are not of the number and types the operation code requires -/
  | operandTypes (op : OpCode)
deriving DecidableEq, Repr

/-- The operation code alone decides the operation and how many operands of which types follow (R74). The
reserved code 0xF is read with whatever operands came with it, since a command with it is refused (R77). -/
def decode (a : Agent) (c : Command) : Except DecodeError Instr :=
  match c.op.toNat, c.operands with
  | 0x0, [] => .ok (.sessionReset a)
  | 0x1, [.num address, .num value] => .ok (.codecWrite a address value)
  | 0x2, [.num address] => .ok (.codecReadReq a address)
  | 0x3, [.seq [rx0, rx1, rx2, rx3]] => .ok (.codecReadResp a rx0 rx1 rx2 rx3)
  | 0x4, [.num startAddress] => .ok (.codecBurstReq a startAddress)
  | 0x5, [.num b0, .num b1, .num b2] => .ok (.unpack3 a b0 b1 b2)
  | 0x6, [.seq bytes] => .ok (.unpackRun a bytes)
  | 0x7, [.seq slice] => .ok (.unpackSlice a slice)
  | 0x8, [] => .ok (.lfsrReseed a)
  | 0x9, [] => .ok (.lfsrNext a)
  | 0xA, [.seq frame] => .ok (.rbPush a frame)
  | 0xB, [] => .ok (.rbPop a)
  | 0xC, [] => .ok (.rbFill a)
  | 0xD, [.num n] => .ok (.rbWait a n)
  | 0xE, [] => .ok (.rbStatus a)
  | 0xF, operands => .ok (.reserved0xF a operands)
  | _, _ => .error (.operandTypes c.op)

/-- The operation code of a command (R75, column `OP`). -/
def Instr.opcode : Instr → OpCode
  | .sessionReset _ => 0x0#4
  | .codecWrite _ _ _ => 0x1#4
  | .codecReadReq _ _ => 0x2#4
  | .codecReadResp _ _ _ _ _ => 0x3#4
  | .codecBurstReq _ _ => 0x4#4
  | .unpack3 _ _ _ _ => 0x5#4
  | .unpackRun _ _ => 0x6#4
  | .unpackSlice _ _ => 0x7#4
  | .lfsrReseed _ => 0x8#4
  | .lfsrNext _ => 0x9#4
  | .rbPush _ _ => 0xA#4
  | .rbPop _ => 0xB#4
  | .rbFill _ => 0xC#4
  | .rbWait _ _ => 0xD#4
  | .rbStatus _ => 0xE#4
  | .reserved0xF _ _ => 0xF#4

/-- The operand values of a command, in the order of R75. -/
def Instr.operands : Instr → List Operand
  | .sessionReset _ => []
  | .codecWrite _ address value => [.num address, .num value]
  | .codecReadReq _ address => [.num address]
  | .codecReadResp _ rx0 rx1 rx2 rx3 => [.seq [rx0, rx1, rx2, rx3]]
  | .codecBurstReq _ startAddress => [.num startAddress]
  | .unpack3 _ b0 b1 b2 => [.num b0, .num b1, .num b2]
  | .unpackRun _ bytes => [.seq bytes]
  | .unpackSlice _ slice => [.seq slice]
  | .lfsrReseed _ => []
  | .lfsrNext _ => []
  | .rbPush _ frame => [.seq frame]
  | .rbPop _ => []
  | .rbFill _ => []
  | .rbWait _ n => [.num n]
  | .rbStatus _ => []
  | .reserved0xF _ operands => operands

/-- The record an agent puts on its port to issue a command. -/
def encode (i : Instr) : Command := { op := i.opcode, operands := i.operands }

/-- The agents a code admits (R75, column `agents`). Code 0xF admits none. -/
def admittedAgents (op : OpCode) : List Agent :=
  match op.toNat with
  | 0x0 => [.host]
  | 0x8 => [.consumer, .host]
  | 0x9 => [.consumer]
  | 0xA => [.producer]
  | 0xB => [.consumer]
  | 0xD => [.consumer]
  | 0xF => []
  | _ => [.producer, .consumer, .host]

/-- `C: FETCH`, the one pseudo-operation: `RB_WAIT 1`, then `RB_POP` (R82). -/
def fetchExpansion : List Instr := [.rbWait .consumer 1, .rbPop .consumer]

/-- An agent the code admits: the one `decodeTableWord` and `State.withFetchWord` let issue a bare code. The
reserved code admits none and is issued by the producer, as in program P5 of spec/95_test_vectors.md. -/
def tableIssuer (op : OpCode) : Agent := (admittedAgents op).headD .producer

/-- The command of a bare code: every operand is zeros. A sequence has the shortest legal length: 4 response
bytes, an empty run, the 4 header bytes of a slice, a frame of `Config.default`. -/
def tableCommand (op : OpCode) : Command :=
  { op := op
    operands :=
      match op.toNat with
      | 0x1 => [.num 0, .num 0]
      | 0x2 => [.num 0]
      | 0x3 => [.seq [0, 0, 0, 0]]
      | 0x4 => [.num 0]
      | 0x5 => [.num 0, .num 0, .num 0]
      | 0x6 => [.seq []]
      | 0x7 => [.seq [0, 0, 0, 0]]
      | 0xA => [.seq (List.replicate Config.default.frameLen 0)]
      | 0xD => [.num 0]
      | _ => [] }

/-- The code is the word's low 4 bits, the only bits a row of the opcode table has. -/
def tableOp (nbits w : Nat) : OpCode := BitVec.ofNat 4 (w % 2 ^ nbits)

/-- What the decoder reads from the command whose code is the table's word and whose operands are zero, issued
by an agent the code admits. -/
def decodeTableWord (nbits w : Nat) : Option Instr :=
  match decode (tableIssuer (tableOp nbits w)) (tableCommand (tableOp nbits w)) with
  | .ok i => some i
  | .error _ => none

end Sys2Proof
end

