-- ==== Sys2Proof/Machine/State.lean ====
section
/-! DEFINITION. The state of the machine: the block's elements of spec/10_state.md R20, the consumer's held
wait (R32), the commands the agents have yet to issue and the record of the completed ones. The outcomes of a
command are those of spec/60_exceptions.md R201. -/

namespace Sys2Proof.Machine

/-- The faults of R201, with what the issuer receives beside the code. A fault refuses ONE command, changes no
state of the block and is recorded for ever; the machine goes on (R200, R209). So a fault is delivered in a
next state, as a `Reply` in the log, and no step ever answers `Host.Outcome.fault` with one (log 11). Each is
exact: neither a safe nor an unsafe departure, unless its docstring says otherwise. -/
inductive Fault where
  /-- code 1, `F_ILLEGAL_OP`: raised for `OP = 0xF` (R202) -/
  | illegalOp
  /-- code 2, `F_WRONG_AGENT`: raised by any operation for an agent its code does not admit (R205) -/
  | wrongAgent (op : OpCode) (a : Agent)
  /-- code 3, `F_OPERAND_RANGE`: raised by the operations with ranged operands (R203); the position counts the
  operands of R75 from 0, the model's choice (log 10), unsafe for a claim about that number -/
  | operandRange (position : Nat)
  /-- code 4, `F_LENGTH`: raised by `UNPACK_RUN`, `UNPACK_SLICE` and `RB_PUSH` (R204) -/
  | length (len : Nat)
  /-- code 5, `F_CURSOR_WRAP`: raised by `RB_PUSH` (R206, R173) -/
  | cursorWrap
  /-- code 6, `F_NOT_RESET`: raised by the codes 0x8 to 0xE before the first reset (R207) -/
  | notReset
  /-- code 7, `F_RESET_BUSY`: raised by `SESSION_RESET` while the consumer is held (R208), up to the turn that
  completes the wait: the model's choice (log 21), unsafe for a claim about a reset before that turn -/
  | resetBusy
deriving DecidableEq, Repr

/-- The outcome code of a fault (R201). -/
def Fault.code : Fault → Nat
  | .illegalOp => 1
  | .wrongAgent _ _ => 2
  | .operandRange _ => 3
  | .length _ => 4
  | .cursorWrap => 5
  | .notReset => 6
  | .resetBusy => 7

/-- Why a step has no meaning. -/
inductive Refusal where
  /-- raised by `exec` for an instruction without a meaning; no instruction is left without one; safe -/
  | notModelled (mnemonic : String)
  /-- raised by `step` before any step of an ill-formed configuration, as R12 requires; exact -/
  | illFormedConfig
  /-- raised by a turn whose agent's next record is no command of R75; safe (log 8) -/
  | malformedCommand (e : DecodeError)
deriving DecidableEq, Repr

/-- The status record of R30. -/
structure Status where
  overflow : Bool
  fill : Nat
  capacity : Nat
deriving DecidableEq, Repr

/-- The results of R75, as the issuing agent receives them. -/
inductive Result where
  /-- no result: `SESSION_RESET`, `LFSR_RESEED`, `RB_WAIT` -/
  | none
  /-- `tx[0..3]`, in wire order (R43) -/
  | tx (bytes : List Byte)
  /-- the 24-bit `value` of `CODEC_READ_RESP` -/
  | value (v : Data)
  /-- `A` and `B` of `UNPACK3` -/
  | pair (A B : Sample)
  /-- `samples` of `UNPACK_RUN` and `UNPACK_SLICE` -/
  | samples (l : List Sample)
  /-- the 16-bit `value` of `LFSR_NEXT` -/
  | pattern (v : Sample)
  /-- `ok` of `RB_PUSH` -/
  | pushed (ok : Bool)
  /-- `ok` and `frame` of `RB_POP`: `ok = 1` exactly when there is a frame (R179) -/
  | popped (frame : Option Frame)
  /-- `fill` of `RB_FILL` -/
  | fill (n : Nat)
  /-- the record of `RB_STATUS` -/
  | status (r : Status)
deriving DecidableEq, Repr

/-- What the issuer receives: the results, outcome code 0, or a fault (R201). -/
inductive Reply where
  | ok (r : Result)
  | fault (f : Fault)
deriving DecidableEq, Repr

/-- The outcome code of R201. -/
def Reply.code : Reply → Nat
  | .ok _ => 0
  | .fault f => f.code

/-- A completed command and what its issuer received. -/
structure Event where
  instr : Instr
  reply : Reply
deriving DecidableEq, Repr

/-- The commands each agent has yet to issue, oldest first. -/
structure Ports where
  producer : List Command
  consumer : List Command
  host : List Command
deriving DecidableEq, Repr

/-- The port of an agent. -/
def Ports.of (p : Ports) : Agent → List Command
  | .producer => p.producer
  | .consumer => p.consumer
  | .host => p.host

/-- The ports with one agent's commands replaced. -/
def Ports.put (p : Ports) (a : Agent) (cs : List Command) : Ports :=
  match a with
  | .producer => { p with producer := cs }
  | .consumer => { p with consumer := cs }
  | .host => { p with host := cs }

/-- The slot array (R40 (b)): the slots that do not hold the unlisted frame, by rising index (log 5). -/
abbrev Memory := List (Nat × Frame)

/-- The machine. The fields from `lfsr` to `init` are the elements of R20. -/
structure State where
  /-- the configuration of the run, which no step writes (R11, log 1) -/
  cfg : Config
  /-- `S.lfsr`, in its low `LFSR_W` bits (R24, log 15) -/
  lfsr : Sample
  /-- `S.rd`, the read cursor (R25) -/
  rd : Nat
  /-- `S.wr`, the write cursor (R25) -/
  wr : Nat
  /-- `Slot[0..CAPACITY-1]` (R26) -/
  slots : Memory
  /-- `S.overflow` (R27) -/
  overflow : Bool
  /-- `S.init` (R20) -/
  init : Bool
  /-- the argument of the consumer's held `RB_WAIT`, agent-held state (R32); it stands until a turn of the
  consumer completes the wait (logs 13 and 21) -/
  wait : Option Nat
  /-- the commands not yet issued (log 7) -/
  ports : Ports
  /-- the agents that have the next turns, first one first (log 7) -/
  turns : List Agent
  /-- the completed commands, newest first: the replies, and the fault record of R209 (log 12) -/
  log : List Event
deriving DecidableEq, Repr

/-- The state after reset (R33): the cursors 0, the seed in the LFSR, no overflow, `S.init = 1`, no wait held.
The spec leaves the slots unspecified: nothing is listed (log 3). The configuration is `Config.default`
(log 2); no command is placed and no agent has a turn (log 7). -/
def State.reset : State :=
  { cfg := Config.default
    lfsr := BitVec.ofNat 16 Config.default.lfsrSeed
    rd := 0
    wr := 0
    slots := []
    overflow := false
    init := true
    wait := none
    ports := { producer := [], consumer := [], host := [] }
    turns := []
    log := [] }

/-- A power-on state: `S.init = 0`, no wait held and nothing completed; every other element is whatever the
given state holds, since the spec leaves it unspecified (R233, log 6). -/
def State.powerOn (unspecified : State) : State :=
  { unspecified with init := false, wait := none, log := [] }

end Sys2Proof.Machine
end

