-- ==== Sys2Proof/Machine/Ops.lean ====
section
/-! DEFINITION. The operations the meanings share: the slot array (spec/20_memory.md R42), the byte order of
command words (R43, R44), and how a command ends, with its results or with a fault
(spec/60_exceptions.md R200, R201, R211). -/

namespace Sys2Proof.Machine

/-- What a slot that is not listed holds: `FRAME_LEN` zero samples (log 3). -/
def blankFrame (c : Config) : Frame := List.replicate c.frameLen 0#16

/-- The canonical form of the slot array: indices strictly rising, no slot listed that holds the unlisted
frame `d`. -/
abbrev Memory.wf (d : Frame) (m : Memory) : Prop :=
  (m.map Prod.fst).Pairwise (· < ·) ∧ ∀ e ∈ m, e.2 ≠ d

/-- `MemRead(Slot, i)`: the whole frame (R42). -/
def Memory.read (d : Frame) : Memory → Nat → Frame
  | [], _ => d
  | (j, f) :: m, i => if j = i then f else Memory.read d m i

/-- The array with slot `i` no longer listed. -/
def Memory.erase : Memory → Nat → Memory
  | [], _ => []
  | (j, f) :: m, i => if j = i then m else (j, f) :: Memory.erase m i

/-- The array with slot `i` listed at its place, holding `f`. -/
def Memory.insert : Memory → Nat → Frame → Memory
  | [], i, f => [(i, f)]
  | (j, g) :: m, i, f =>
    if i < j then (i, f) :: (j, g) :: m
    else if j = i then (i, f) :: m
    else (j, g) :: Memory.insert m i f

/-- `MemWrite(Slot, i, F)`: the whole frame replaced, in canonical form (R42). -/
def Memory.write (d : Frame) (m : Memory) (i : Nat) (f : Frame) : Memory :=
  if f = d then m.erase i else m.insert i f

/-- The frame `Slot[i]` holds. -/
def State.slot (s : State) (i : Nat) : Frame := s.slots.read (blankFrame s.cfg) i

/-- `Slot[i] <- f`. -/
def State.setSlot (s : State) (i : Nat) (f : Frame) : State :=
  { s with slots := s.slots.write (blankFrame s.cfg) i f }

/-- `BE4(W)`: the bytes of a word in the order they are sent, the most significant first (R43, R100). -/
def be4 (w : CommandWord) : List Byte :=
  [w.extractLsb' 24 8, w.extractLsb' 16 8, w.extractLsb' 8 8, w.extractLsb' 0 8]

/-- `UNBE4(B)`: the big-endian word of four received bytes (R44, R100). -/
def unbe4 (b0 b1 b2 b3 : Byte) : CommandWord := b0 ++ b1 ++ b2 ++ b3

/-- The command is complete and its issuer has the reply. -/
def State.reply (s : State) (i : Instr) (r : Reply) : State :=
  { s with log := ⟨i, r⟩ :: s.log }

/-- The command ends with its results, outcome `OK` (R201). -/
def finish (i : Instr) (r : Result) (s : State) : Host.Outcome State Fault Refusal :=
  .next (s.reply i (.ok r))

/-- `raise Fault(code)`: the command ends with the fault instead of its results. No state of the block changes,
nothing is saved, control goes nowhere, and the fault is recorded (R15, R200, R209). -/
def raise (i : Instr) (f : Fault) (s : State) : Host.Outcome State Fault Refusal :=
  .next (s.reply i (.fault f))

/-- The command reports the first fault of its checks, which stand in the order of R211; if none applies, its
own pseudocode runs. -/
def attempt (i : Instr) (checks : List (Option Fault)) (s : State)
    (effect : Host.Outcome State Fault Refusal) : Host.Outcome State Fault Refusal :=
  match checks.findSome? id with
  | some f => raise i f s
  | none => effect

/-- The faults recorded so far, newest first (R209). -/
def State.faults (s : State) : List (Instr × Fault) :=
  s.log.filterMap fun e =>
    match e.reply with
    | .fault f => some (e.instr, f)
    | .ok _ => none

end Sys2Proof.Machine
end

