-- ==== Sys2Proof/Machine/Operands.lean ====
section
/-! DEFINITION. The checks of a command's agent and operands (spec/60_exceptions.md R203, R204, R205, R207)
and the typed values of operands that passed them (spec/30_encoding.md R79). -/

namespace Sys2Proof.Machine

/-- `F_WRONG_AGENT`, with the code and the agent, unless the row of R75 admits the agent (R205). -/
def wrongAgent (op : OpCode) (a : Agent) : Option Fault :=
  if a ∈ admittedAgents op then none else some (.wrongAgent op a)

/-- `F_NOT_RESET` until the first `SESSION_RESET` since power-on (R207, R233). -/
def notReset (s : State) : Option Fault := if s.init then none else some .notReset

/-- `F_OPERAND_RANGE` for a number above its width (R16, R203). -/
def outOfRange (bits position v : Nat) : Option Fault :=
  if v < 2 ^ bits then none else some (.operandRange position)

/-- `F_OPERAND_RANGE` for a sequence with an element above its width (R16, R203). -/
def anyOutOfRange (bits position : Nat) (vs : List Nat) : Option Fault :=
  if ∀ v ∈ vs, v < 2 ^ bits then none else some (.operandRange position)

/-- `F_LENGTH`, with the length, unless the length is legal (R204). -/
def badLength (legal : Bool) (len : Nat) : Option Fault :=
  if legal then none else some (.length len)

/-- `F_RESET_BUSY` while the consumer is held in `RB_WAIT` (R208, R231). A wait whose condition already holds
counts as held until the consumer's turn completes it (DESIGN CHOICE, log 21; unsafe). -/
def resetBusy (s : State) : Option Fault := if s.wait.isSome then some .resetBusy else none

/-- The bytes of a sequence operand in range. -/
def toBytes (vs : List Nat) : List Byte := vs.map (BitVec.ofNat 8)

/-- The frame of a sequence operand in range: its values, unchanged (R174). -/
def toFrame (vs : List Nat) : Frame := vs.map (BitVec.ofNat 16)

/-- Where a sample stands in a frame buffer; the block neither reads nor relies on it (R73). -/
def frameIndex (antennas samples chirp sample antenna : Nat) : Nat :=
  chirp * antennas * samples + sample * antennas + antenna

end Sys2Proof.Machine
end

