-- ==== Sys2Proof/Machine/Codec.lean ====
section
/-! DEFINITION. The Register Protocol Codec: the words of spec/30_encoding.md R62 to R66 and the operations of
spec/41_codec.md. They read and write no state of the block (R100). -/

namespace Sys2Proof.Machine

/-- The write word: `ADDR = address`, `WR = 1`, `DATA = value` (R63, R62). -/
def writeWord (l : Layout) (address : Address) (value : Data) : CommandWord :=
  (address.setWidth 32 <<< l.addrPos) ||| (1#32 <<< l.wrPos) ||| (value.setWidth 32 <<< l.dataPos)

/-- The read-request word: `ADDR = address`, `WR = 0`, `DATA = 0` (R64). -/
def readRequestWord (l : Layout) (address : Address) : CommandWord :=
  address.setWidth 32 <<< l.addrPos

/-- The `DATA` field of a response word; its other bits are not interpreted (R65). -/
def responseData (l : Layout) (w : CommandWord) : Data := w.extractLsb' l.dataPos 24

/-- The burst-FIFO-request word: the command byte on top, the start address at `SADR_POS`, zero elsewhere
(R66, R108). -/
def burstWord (c : Config) (startAddress : Address) : CommandWord :=
  (c.burstCmd.setWidth 32 <<< 24) ||| (startAddress.setWidth 32 <<< c.sadrPos)

/-- The bytes transmitted in one burst FIFO read, `4 + 3 * SLICE_SIZE` of them: the request word, then zeros.
The transfer itself is the driver's (R69). -/
def burstTransfer (c : Config) (startAddress : Address) : List Byte :=
  be4 (burstWord c startAddress) ++ List.replicate (3 * c.sliceSize) 0#8

/-- `CODEC_WRITE address, value => tx[0..3]` (R102). -/
def execCodecWrite (a : Agent) (address value : Nat) (s : State) : Host.Outcome State Fault Refusal :=
  attempt (.codecWrite a address value)
    [wrongAgent 0x1#4 a, outOfRange 7 0 address, outOfRange 24 1 value] s
    (finish (.codecWrite a address value)
      (.tx (be4 (writeWord s.cfg.layout (BitVec.ofNat 7 address) (BitVec.ofNat 24 value)))) s)

/-- `CODEC_READ_REQ address => tx[0..3]` (R104). -/
def execCodecReadReq (a : Agent) (address : Nat) (s : State) : Host.Outcome State Fault Refusal :=
  attempt (.codecReadReq a address) [wrongAgent 0x2#4 a, outOfRange 7 0 address] s
    (finish (.codecReadReq a address)
      (.tx (be4 (readRequestWord s.cfg.layout (BitVec.ofNat 7 address)))) s)

/-- `CODEC_READ_RESP rx[0..3] => value` (R106). -/
def execCodecReadResp (a : Agent) (rx0 rx1 rx2 rx3 : Nat) (s : State) :
    Host.Outcome State Fault Refusal :=
  attempt (.codecReadResp a rx0 rx1 rx2 rx3)
    [wrongAgent 0x3#4 a, anyOutOfRange 8 0 [rx0, rx1, rx2, rx3]] s
    (finish (.codecReadResp a rx0 rx1 rx2 rx3)
      (.value (responseData s.cfg.layout
        (unbe4 (BitVec.ofNat 8 rx0) (BitVec.ofNat 8 rx1) (BitVec.ofNat 8 rx2) (BitVec.ofNat 8 rx3)))) s)

/-- `CODEC_BURST_REQ start_address => tx[0..3]` (R108). -/
def execCodecBurstReq (a : Agent) (startAddress : Nat) (s : State) : Host.Outcome State Fault Refusal :=
  attempt (.codecBurstReq a startAddress) [wrongAgent 0x4#4 a, outOfRange 7 0 startAddress] s
    (finish (.codecBurstReq a startAddress)
      (.tx (be4 (burstWord s.cfg (BitVec.ofNat 7 startAddress)))) s)

end Sys2Proof.Machine
end

