-- ==== Sys2Proof/Machine/Lfsr.lean ====
section
/-! DEFINITION. The Data-Integrity Self-Test Generator: the update of spec/43_lfsr.md R152 and the operations
of R150 and R151. The register stands in the low `LFSR_W` bits of a 16-bit container (log 15). -/

namespace Sys2Proof.Machine

/-- The feedback bit: the XOR of bits 0, 3, 9 and 10 (R152). -/
def lfsrFeedback (v : Sample) : Bool :=
  ((v.getLsbD 0 ^^ v.getLsbD 3) ^^ v.getLsbD 9) ^^ v.getLsbD 10

/-- `STEP`: one place to the right, the feedback bit entering at bit `LFSR_W - 1` (R152). -/
def lfsrStep (width : Nat) (v : Sample) : Sample :=
  (v >>> 1) ||| ((BitVec.ofBool (lfsrFeedback v)).setWidth 16 <<< (width - 1))

/-- `LFSR_RESEED` (R150). -/
def execLfsrReseed (a : Agent) (s : State) : Host.Outcome State Fault Refusal :=
  attempt (.lfsrReseed a) [wrongAgent 0x8#4 a, notReset s] s
    (finish (.lfsrReseed a) .none { s with lfsr := BitVec.ofNat 16 s.cfg.lfsrSeed })

/-- `LFSR_NEXT => value`: the current value is returned, then the register updated (R151, R155). -/
def execLfsrNext (a : Agent) (s : State) : Host.Outcome State Fault Refusal :=
  attempt (.lfsrNext a) [wrongAgent 0x9#4 a, notReset s] s
    (finish (.lfsrNext a) (.pattern s.lfsr) { s with lfsr := lfsrStep s.cfg.lfsrW s.lfsr })

end Sys2Proof.Machine
end

