-- ==== Sys2Proof/Machine/Flags.lean ====
section
/-! DEFINITION. The quantities derived from the cursors (spec/10_state.md R28, spec/44_ring_buffer.md R172),
the overflow flag (R27, R178), the status record (R30), the cursor-wrap condition and the finite-cursor
realisation (R173). The block has no condition codes (R23). -/

namespace Sys2Proof.Machine

/-- `fill = S.wr - S.rd`, exact at the step that computes it (R172). -/
def State.fill (s : State) : Nat := s.wr - s.rd

/-- `empty = (fill = 0)` (R28). -/
def State.isEmpty (s : State) : Bool := s.fill == 0

/-- `full = (fill = CAPACITY)` (R28). -/
def State.isFull (s : State) : Bool := s.fill == s.cfg.capacity

/-- `S.overflow <- 1` (R178). -/
def State.setOverflow (s : State) : State := { s with overflow := true }

/-- The status record (R30). -/
def State.status (s : State) : Status :=
  { overflow := s.overflow, fill := s.fill, capacity := s.cfg.capacity }

/-- A push now would advance `S.wr` to `2^CURSOR_W`, and `CAPACITY` does not divide `2^CURSOR_W` (R173). -/
def State.wouldWrap (s : State) : Bool :=
  decide (2 ^ s.cfg.cursorW % s.cfg.capacity ≠ 0) && s.wr + 1 == 2 ^ s.cfg.cursorW

/-- What a realisation with cursors of `CURSOR_W` bits holds for a cursor (R173). -/
def finiteCursor (c : Config) (cursor : Nat) : Nat := cursor % 2 ^ c.cursorW

/-- The fill such a realisation computes from the two cursors it holds: `(wr - rd) mod 2^CURSOR_W` (R173). -/
def finiteFill (c : Config) (rdHeld wrHeld : Nat) : Nat :=
  (wrHeld + 2 ^ c.cursorW - rdHeld) % 2 ^ c.cursorW

/-- The slot such a realisation selects with a cursor it holds (R171, R173). -/
def finiteSlot (c : Config) (held : Nat) : Nat := held % c.capacity

end Sys2Proof.Machine
end

