-- ==== Sys2Proof/Machine/RingBuffer.lean ====
section
/-! DEFINITION. The Ring Buffer operations of spec/44_ring_buffer.md. Each is one atomic step (R188). -/

namespace Sys2Proof.Machine

/-- The slot a push writes (R171). -/
def State.pushSlot (s : State) : Nat := s.wr % s.cfg.capacity

/-- The slot a pop reads (R171). -/
def State.popSlot (s : State) : Nat := s.rd % s.cfg.capacity

/-- A successful push: the slot first, then the cursor (R174). -/
def State.publish (s : State) (f : Frame) : State :=
  { s.setSlot s.pushSlot f with wr := s.wr + 1 }

/-- A successful pop releases its slot, which it does not change (R179). -/
def State.release (s : State) : State := { s with rd := s.rd + 1 }

/-- `P: RB_PUSH frame => ok` (R174): full, then the cursor's wrap, then the write. -/
def execRbPush (a : Agent) (frame : List Nat) (s : State) : Host.Outcome State Fault Refusal :=
  attempt (.rbPush a frame)
    [wrongAgent 0xA#4 a, notReset s, anyOutOfRange 16 0 frame,
      badLength (frame.length == s.cfg.frameLen) frame.length] s
    (if s.isFull then finish (.rbPush a frame) (.pushed false) s.setOverflow
     else if s.wouldWrap then raise (.rbPush a frame) .cursorWrap s
     else finish (.rbPush a frame) (.pushed true) (s.publish (toFrame frame)))

/-- `C: RB_POP => ok, frame` (R179). -/
def execRbPop (a : Agent) (s : State) : Host.Outcome State Fault Refusal :=
  attempt (.rbPop a) [wrongAgent 0xB#4 a, notReset s] s
    (if s.isEmpty then finish (.rbPop a) (.popped none) s
     else finish (.rbPop a) (.popped (some (s.slot s.popSlot))) s.release)

/-- `RB_FILL => fill` (R185). -/
def execRbFill (a : Agent) (s : State) : Host.Outcome State Fault Refusal :=
  attempt (.rbFill a) [wrongAgent 0xC#4 a, notReset s] s
    (finish (.rbFill a) (.fill s.fill) s)

/-- `RB_STATUS => overflow, fill, capacity` (R184). -/
def execRbStatus (a : Agent) (s : State) : Host.Outcome State Fault Refusal :=
  attempt (.rbStatus a) [wrongAgent 0xE#4 a, notReset s] s
    (finish (.rbStatus a) (.status s.status) s)

/-- `hold until fill ≥ n` (R186): the wait completes in this step if the fill allows it; otherwise the consumer
is held, and its next turn asks again (logs 13 and 21). -/
def holdUntil (a : Agent) (n : Nat) (s : State) : Host.Outcome State Fault Refusal :=
  if n ≤ s.fill then finish (.rbWait a n) .none { s with wait := none }
  else .next { s with wait := some n }

/-- `C: RB_WAIT n` (R186). With `n > CAPACITY` nothing lifts the hold (R187). -/
def execRbWait (a : Agent) (n : Nat) (s : State) : Host.Outcome State Fault Refusal :=
  attempt (.rbWait a n) [wrongAgent 0xD#4 a, notReset s] s (holdUntil a n s)

end Sys2Proof.Machine
end

