-- ==== Sys2Proof/Machine/Session.lean ====
section
/-! DEFINITION. `SESSION_RESET` (spec/70_reset_and_hazards.md R230, R231) and the reserved code
(spec/30_encoding.md R77, spec/60_exceptions.md R202). -/

namespace Sys2Proof.Machine

/-- The writes of `SESSION_RESET`. The slots are not written (R230, log 4). -/
def State.startSession (s : State) : State :=
  { s with
    lfsr := BitVec.ofNat 16 s.cfg.lfsrSeed
    rd := 0
    wr := 0
    overflow := false
    init := true }

/-- `H: SESSION_RESET` (R230). -/
def execSessionReset (a : Agent) (s : State) : Host.Outcome State Fault Refusal :=
  attempt (.sessionReset a) [wrongAgent 0x0#4 a, resetBusy s] s
    (finish (.sessionReset a) .none s.startSession)

/-- A command with the reserved code is refused with `F_ILLEGAL_OP`, before any other check (R202, R211). -/
def execReserved0xF (a : Agent) (operands : List Operand) (s : State) :
    Host.Outcome State Fault Refusal :=
  raise (.reserved0xF a operands) .illegalOp s

end Sys2Proof.Machine
end

