-- ==== Sys2Proof/Machine/Unpacker.lean ====
section
/-! DEFINITION. The Raw Sample Unpacker: the triplet of spec/30_encoding.md R71, the raw slice of R70 and the
operations of spec/42_unpacker.md. They read and write no state of the block (R130). -/

namespace Sys2Proof.Machine

/-- Sample `A` of a triplet: `{b0, b1[7:4]}`, zero-extended (R131). -/
def sampleA (b0 b1 : Byte) : Sample := (b0 ++ b1.extractLsb' 4 4).setWidth 16

/-- Sample `B` of a triplet: `{b1[3:0], b2}`, zero-extended (R131). -/
def sampleB (b1 b2 : Byte) : Sample := (b1.extractLsb' 0 4 ++ b2).setWidth 16

/-- The samples of a run of triplets, in order (R133). A remainder of one or two bytes gives none; the
operations refuse such a run before they unpack. -/
def unpackTriplets : List Byte → List Sample
  | b0 :: b1 :: b2 :: rest => sampleA b0 b1 :: sampleB b1 b2 :: unpackTriplets rest
  | _ => []

/-- The packed payload of a raw slice: what follows its 4 header bytes (R70, R135). -/
def slicePayload (slice : List Byte) : List Byte := slice.drop 4

/-- `PACK3`, the reference inverse of `UNPACK3`; no operation of the block (R132). -/
def pack3 (A B : BitVec 12) : Byte × Byte × Byte :=
  (A.extractLsb' 4 8, A.extractLsb' 0 4 ++ B.extractLsb' 8 4, B.extractLsb' 0 8)

/-- `UNPACK3 b0, b1, b2 => A, B` (R131). -/
def execUnpack3 (a : Agent) (b0 b1 b2 : Nat) (s : State) : Host.Outcome State Fault Refusal :=
  attempt (.unpack3 a b0 b1 b2)
    [wrongAgent 0x5#4 a, outOfRange 8 0 b0, outOfRange 8 1 b1, outOfRange 8 2 b2] s
    (finish (.unpack3 a b0 b1 b2)
      (.pair (sampleA (BitVec.ofNat 8 b0) (BitVec.ofNat 8 b1))
        (sampleB (BitVec.ofNat 8 b1) (BitVec.ofNat 8 b2))) s)

/-- `UNPACK_RUN bytes[0..L-1] => samples` (R133). -/
def execUnpackRun (a : Agent) (bytes : List Nat) (s : State) : Host.Outcome State Fault Refusal :=
  attempt (.unpackRun a bytes)
    [wrongAgent 0x6#4 a, anyOutOfRange 8 0 bytes, badLength (bytes.length % 3 == 0) bytes.length] s
    (finish (.unpackRun a bytes) (.samples (unpackTriplets (toBytes bytes))) s)

/-- `UNPACK_SLICE slice[0..L-1] => samples` (R135). -/
def execUnpackSlice (a : Agent) (slice : List Nat) (s : State) : Host.Outcome State Fault Refusal :=
  attempt (.unpackSlice a slice)
    [wrongAgent 0x7#4 a, anyOutOfRange 8 0 slice,
      badLength (decide (4 ≤ slice.length) && (slice.length - 4) % 3 == 0) slice.length] s
    (finish (.unpackSlice a slice) (.samples (unpackTriplets (slicePayload (toBytes slice)))) s)

end Sys2Proof.Machine
end

