-- ==== Sys2Proof/Machine/Dispatch.lean ====
section
/-! DEFINITION. One arm per constructor of `Instr`: each calls its instruction's meaning. -/

namespace Sys2Proof.Machine

def exec (i : Instr) (s : State) : Host.Outcome State Fault Refusal :=
  match i with
  | .sessionReset a => Sys2Proof.Machine.execSessionReset a s
  | .codecWrite a address value => Sys2Proof.Machine.execCodecWrite a address value s
  | .codecReadReq a address => Sys2Proof.Machine.execCodecReadReq a address s
  | .codecReadResp a rx0 rx1 rx2 rx3 => Sys2Proof.Machine.execCodecReadResp a rx0 rx1 rx2 rx3 s
  | .codecBurstReq a startAddress => Sys2Proof.Machine.execCodecBurstReq a startAddress s
  | .unpack3 a b0 b1 b2 => Sys2Proof.Machine.execUnpack3 a b0 b1 b2 s
  | .unpackRun a bytes => Sys2Proof.Machine.execUnpackRun a bytes s
  | .unpackSlice a slice => Sys2Proof.Machine.execUnpackSlice a slice s
  | .lfsrReseed a => Sys2Proof.Machine.execLfsrReseed a s
  | .lfsrNext a => Sys2Proof.Machine.execLfsrNext a s
  | .rbPush a frame => Sys2Proof.Machine.execRbPush a frame s
  | .rbPop a => Sys2Proof.Machine.execRbPop a s
  | .rbFill a => Sys2Proof.Machine.execRbFill a s
  | .rbWait a n => Sys2Proof.Machine.execRbWait a n s
  | .rbStatus a => Sys2Proof.Machine.execRbStatus a s
  | .reserved0xF a operands => Sys2Proof.Machine.execReserved0xF a operands s

end Sys2Proof.Machine
end

