-- ==== Sys2Proof/Machine/Issue.lean ====
section
/-! DEFINITION. A turn of an agent: it issues its next command, or, a consumer held in `RB_WAIT`, asks again
whether the fill lifts the hold (spec/00_scope.md R9 and R10, spec/10_state.md R32, spec/44_ring_buffer.md
R186). The order of the turns is given from outside (spec/20_memory.md R51, log 7). -/

namespace Sys2Proof.Machine

/-- The agent issues the first command on its port. With none there, nothing happens. -/
def issueNext (a : Agent) (s : State) : Host.Outcome State Fault Refusal :=
  match s.ports.of a with
  | [] => .next s
  | c :: cs =>
    match decode a c with
    | .ok i => exec i { s with ports := s.ports.put a cs }
    | .error e => .refused (.malformedCommand e)

/-- A held consumer has no step but the check of its wait (R32). That the wait ends at such a turn, and not in
the push that makes its condition true, is the model's reading (logs 13 and 21). -/
def takeTurn (a : Agent) (s : State) : Host.Outcome State Fault Refusal :=
  match a, s.wait with
  | .consumer, some n => holdUntil .consumer n s
  | _, _ => issueNext a s

/-- The first agent of `turns` has its turn. With no turn left the block stays as it is: it never decides which
operation comes next (R22, log 14). -/
def runTurn (s : State) : Host.Outcome State Fault Refusal :=
  match s.turns with
  | [] => .next s
  | a :: rest => takeTurn a { s with turns := rest }

/-- The bare code of a table word placed where the next step issues it: first on the port of an agent the code
admits, which has the next turn; a consumer is not held (log 7). -/
def placeTableWord (s : State) (nbits w : Nat) : State :=
  let op := tableOp nbits w
  let a := tableIssuer op
  { s with
    ports := s.ports.put a (tableCommand op :: s.ports.of a)
    turns := a :: s.turns
    wait := if a = .consumer then none else s.wait }

end Sys2Proof.Machine
end

