-- ==== Sys2Proof/Machine/Step.lean ====
section
/-! DEFINITION. One step of the machine: a model refuses an ill-formed configuration before any step
(spec/00_scope.md R12); otherwise the agent whose turn it is takes it. -/

namespace Sys2Proof.Machine

/-- One step. -/
def step (s : State) : Host.Outcome State Fault Refusal :=
  if s.cfg.WF then runTurn s else .refused .illFormedConfig

/-- `s` with the command of a table word placed so that the next step issues it. -/
def State.withFetchWord (s : State) (nbits w : Nat) : State := placeTableWord s nbits w

end Sys2Proof.Machine
end

