-- ==== Sys2Proof/Safety.lean ====
section
/-! DEFINITION. What holds between steps: the invariants of spec/10_state.md R24 to R28, the session history
of spec/44_ring_buffer.md R182 and R189 to R191 and of spec/43_lfsr.md R154, and what a correct run is
(spec/60_exceptions.md R209). -/

namespace Sys2Proof.Machine

/-- The elements have the shapes R20 gives them: the LFSR `LFSR_W` bits (R24), the slot array in canonical
form, with frames of `FRAME_LEN` samples at indices below `CAPACITY` (R26). -/
structure State.Shaped (s : State) : Prop where
  lfsr : s.lfsr.toNat < 2 ^ s.cfg.lfsrW
  slots : Memory.wf (blankFrame s.cfg) s.slots
  slotIndex : ∀ e ∈ s.slots, e.1 < s.cfg.capacity
  frameLen : ∀ e ∈ s.slots, e.2.length = s.cfg.frameLen

/-- What every state after a `SESSION_RESET` satisfies: the LFSR is not zero (R24), `0 ≤ fill ≤ CAPACITY`
(R28), and the write cursor stays below `2^CURSOR_W` where it must (R173). -/
structure State.InSession (s : State) : Prop where
  lfsr : s.lfsr ≠ 0#16
  cursors : s.rd ≤ s.wr
  fill : s.wr ≤ s.rd + s.cfg.capacity
  noWrap : 2 ^ s.cfg.cursorW % s.cfg.capacity = 0 ∨ s.wr < 2 ^ s.cfg.cursorW

/-- The machine's invariant. Before the first reset only the shapes and the absence of a held wait hold
(R233). -/
structure State.Inv (s : State) : Prop where
  cfg : s.cfg.WF
  shaped : s.Shaped
  session : s.init = true → s.InSession
  wait : s.wait.isSome = true → s.init = true

/-- A completed `SESSION_RESET`. -/
def Event.startsSession (e : Event) : Bool :=
  match e.instr, e.reply with
  | .sessionReset _, .ok _ => true
  | _, _ => false

/-- A completed `SESSION_RESET` or `LFSR_RESEED`. -/
def Event.reseeds (e : Event) : Bool :=
  match e.instr, e.reply with
  | .sessionReset _, .ok _ => true
  | .lfsrReseed _, .ok _ => true
  | _, _ => false

/-- The frame of a push with `ok = 1`. -/
def Event.pushedFrame (e : Event) : Option Frame :=
  match e.instr, e.reply with
  | .rbPush _ frame, .ok (.pushed true) => some (toFrame frame)
  | _, _ => none

/-- The frame a pop with `ok = 1` returned. -/
def Event.poppedFrame (e : Event) : Option Frame :=
  match e.reply with
  | .ok (.popped frame) => frame
  | _ => none

/-- A push refused because the buffer was full. -/
def Event.isDrop (e : Event) : Bool :=
  match e.reply with
  | .ok (.pushed false) => true
  | _ => false

/-- The value an `LFSR_NEXT` returned. -/
def Event.drawnValue (e : Event) : Option Sample :=
  match e.reply with
  | .ok (.pattern v) => some v
  | _ => none

/-- What has completed since the last `SESSION_RESET`, newest first. -/
def State.sessionEvents (s : State) : List Event := s.log.takeWhile (fun e => !e.startsSession)

/-- The frames pushed with `ok = 1` in this session, in order. -/
def State.pushedFrames (s : State) : List Frame :=
  (s.sessionEvents.filterMap Event.pushedFrame).reverse

/-- The frames popped with `ok = 1` in this session, in order. -/
def State.poppedFrames (s : State) : List Frame :=
  (s.sessionEvents.filterMap Event.poppedFrame).reverse

/-- The values drawn from the LFSR since it was last seeded, in order. -/
def State.drawnValues (s : State) : List Sample :=
  ((s.log.takeWhile (fun e => !e.reseeds)).filterMap Event.drawnValue).reverse

/-- The queue of R189 to R191 as the completed commands show it: the cursors count the successful pushes and
pops, frames left in the order they entered, every unread frame is in the slot its cursor position selects,
and the overflow flag tells whether a push was refused (R178, R182). -/
structure State.QueueHistory (s : State) : Prop where
  pushes : s.pushedFrames.length = s.wr
  pops : s.poppedFrames.length = s.rd
  order : s.poppedFrames = s.pushedFrames.take s.rd
  unread : ∀ k, s.rd ≤ k → k < s.wr → s.pushedFrames[k]? = some (s.slot (k % s.cfg.capacity))
  overflow : s.overflow = true ↔ ∃ e ∈ s.sessionEvents, e.isDrop = true

/-- The generator as the completed commands show it: since the last seeding the values drawn are the seed and
its successors under `STEP`, and the register holds the next one (R151, R154). -/
structure State.PatternHistory (s : State) : Prop where
  values : s.drawnValues =
    (List.range s.drawnValues.length).map fun k =>
      (lfsrStep s.cfg.lfsrW)^[k] (BitVec.ofNat 16 s.cfg.lfsrSeed)
  register : s.lfsr = (lfsrStep s.cfg.lfsrW)^[s.drawnValues.length] (BitVec.ofNat 16 s.cfg.lfsrSeed)

/-- A run is correct so far when no fault is recorded (R209). -/
abbrev State.Correct (s : State) : Prop := s.faults = []

end Sys2Proof.Machine
end

