-- ==== Sys2Proof/Certificates/Slice0/Obligations.lean ====
section
/-! DEFINITION. The statements for the provers. Each docstring names the rules of spec/ its statement
formalises. `s.reply i r` is the state `s` with the command `i` completed with the reply `r`, so an equation
`exec i s = .next (State.reply s' i r)` states the whole next state: every field of `s'` not written in it is
as it was. -/

open Sys2Proof Sys2Proof.Machine

/-! ## Register Protocol Codec -/

/-- R102: `CODEC_WRITE` at this spec's layout, which the spec takes from general knowledge, log 16. -/
def Obligations.CodecWriteSendsItsWord : Prop :=
  ∀ (a : Agent) (address value : Nat) (s : State), s.cfg.layout = Layout.spec →
    let i := Instr.codecWrite a address value
    let w : BitVec 32 := (BitVec.ofNat 32 address <<< 25) ||| (1#32 <<< 24) ||| BitVec.ofNat 32 value
    i.opcode = 0x1#4 ∧
    (address < 2 ^ 7 → value < 2 ^ 24 →
      exec i s = .next (s.reply i (.ok (.tx
        [w.extractLsb' 24 8, w.extractLsb' 16 8, w.extractLsb' 8 8, w.extractLsb' 0 8])))) ∧
    (¬ (address < 2 ^ 7 ∧ value < 2 ^ 24) →
      ∃ p, exec i s = .next (s.reply i (.fault (.operandRange p))))

/-- R104: `CODEC_READ_REQ` at this spec's layout, log 16. -/
def Obligations.CodecReadRequestSendsItsWord : Prop :=
  ∀ (a : Agent) (address : Nat) (s : State), s.cfg.layout = Layout.spec →
    let i := Instr.codecReadReq a address
    let w : BitVec 32 := BitVec.ofNat 32 address <<< 25
    i.opcode = 0x2#4 ∧
    (address < 2 ^ 7 →
      exec i s = .next (s.reply i (.ok (.tx
        [w.extractLsb' 24 8, w.extractLsb' 16 8, w.extractLsb' 8 8, w.extractLsb' 0 8])))) ∧
    (¬ address < 2 ^ 7 → ∃ p, exec i s = .next (s.reply i (.fault (.operandRange p))))

/-- R106: `CODEC_READ_RESP` at this spec's layout, log 16; byte 0 has no effect. -/
def Obligations.CodecReadResponseTakesItsData : Prop :=
  ∀ (a : Agent) (rx0 rx1 rx2 rx3 : Nat) (s : State), s.cfg.layout = Layout.spec →
    let i := Instr.codecReadResp a rx0 rx1 rx2 rx3
    i.opcode = 0x3#4 ∧
    ((∀ v ∈ [rx0, rx1, rx2, rx3], v < 2 ^ 8) →
      exec i s = .next (s.reply i (.ok (.value
        (BitVec.ofNat 24 (rx1 * 2 ^ 16 + rx2 * 2 ^ 8 + rx3)))))) ∧
    (¬ (∀ v ∈ [rx0, rx1, rx2, rx3], v < 2 ^ 8) →
      ∃ p, exec i s = .next (s.reply i (.fault (.operandRange p))))

/-- R108: `CODEC_BURST_REQ` at this spec's burst constants, log 16. -/
def Obligations.CodecBurstRequestSendsItsWord : Prop :=
  ∀ (a : Agent) (startAddress : Nat) (s : State), s.cfg.burstCmd = 0xFF#8 → s.cfg.sadrPos = 17 →
    let i := Instr.codecBurstReq a startAddress
    let w : BitVec 32 := 0xFF000000#32 ||| (BitVec.ofNat 32 startAddress <<< 17)
    i.opcode = 0x4#4 ∧
    (startAddress < 2 ^ 7 →
      exec i s = .next (s.reply i (.ok (.tx
        [w.extractLsb' 24 8, w.extractLsb' 16 8, w.extractLsb' 8 8, w.extractLsb' 0 8])))) ∧
    (¬ startAddress < 2 ^ 7 → ∃ p, exec i s = .next (s.reply i (.fault (.operandRange p))))

/-- The spec's own inference, R103: the laws of `CODEC_WRITE` at this spec's layout, log 16. It is injective;
its image is the byte sequences of the words with the write bit set; the response operation recovers the
value; the address is in bits 31..25. -/
def Obligations.CodecWriteLaws : Prop :=
  (∀ (a a' : Address) (v v' : Data),
    be4 (writeWord Layout.spec a v) = be4 (writeWord Layout.spec a' v') → a = a' ∧ v = v') ∧
  (∀ bytes : List Byte, (∃ a v, bytes = be4 (writeWord Layout.spec a v)) ↔
    ∃ w : CommandWord, bytes = be4 w ∧ w.getLsbD 24 = true) ∧
  (∀ (g : Agent) (s : State) (a : Address) (v : Data) (b0 b1 b2 b3 : Byte),
    s.cfg.layout = Layout.spec → be4 (writeWord Layout.spec a v) = [b0, b1, b2, b3] →
    (unbe4 b0 b1 b2 b3).extractLsb' 25 7 = a ∧
    exec (.codecReadResp g b0.toNat b1.toNat b2.toNat b3.toNat) s =
      .next (s.reply (.codecReadResp g b0.toNat b1.toNat b2.toNat b3.toNat) (.ok (.value v))))

/-- What R62 and decision D3 leave to infer: under EVERY well-formed layout each field of a write or
read-request word reads back what was put in it. -/
def Obligations.FieldsReadBackUnderAnyLayout : Prop :=
  ∀ (l : Layout) (a : Address) (v : Data), l.WF →
    responseData l (writeWord l a v) = v ∧
    (writeWord l a v).extractLsb' l.addrPos 7 = a ∧ (writeWord l a v).getLsbD l.wrPos = true ∧
    (readRequestWord l a).extractLsb' l.addrPos 7 = a ∧
    (readRequestWord l a).getLsbD l.wrPos = false ∧ responseData l (readRequestWord l a) = 0#24

/-- The spec's own inference, R105: the laws of `CODEC_READ_REQ` at this spec's layout and burst constants,
log 16. -/
def Obligations.CodecReadRequestLaws : Prop :=
  (∀ a a' : Address,
    be4 (readRequestWord Layout.spec a) = be4 (readRequestWord Layout.spec a') → a = a') ∧
  (∀ bytes : List Byte, (∃ a, bytes = be4 (readRequestWord Layout.spec a)) ↔
    ∃ w : CommandWord, bytes = be4 w ∧ w.extractLsb' 0 25 = 0#25) ∧
  (∀ (a b : Address) (v : Data), readRequestWord Layout.spec a ≠ writeWord Layout.spec b v) ∧
  (∀ (c : Config) (a b : Address), c.burstCmd = 0xFF#8 → c.sadrPos = 17 →
    readRequestWord Layout.spec a ≠ burstWord c b)

/-- The spec's own inference, R107: the laws of `CODEC_READ_RESP`, log 16. The value is reached for every
24-bit value, byte 0 has no effect, it undoes `CODEC_WRITE`, and on a burst-request word it gives the start
address shifted to bit 17. -/
def Obligations.CodecReadResponseLaws : Prop :=
  (∀ v : Data, ∃ b0 b1 b2 b3 : Byte, responseData Layout.spec (unbe4 b0 b1 b2 b3) = v) ∧
  (∀ b0 b0' b1 b2 b3 : Byte,
    responseData Layout.spec (unbe4 b0 b1 b2 b3) = responseData Layout.spec (unbe4 b0' b1 b2 b3)) ∧
  (∀ (a : Address) (v : Data), responseData Layout.spec (writeWord Layout.spec a v) = v) ∧
  (∀ (c : Config) (a : Address), c.burstCmd = 0xFF#8 → c.sadrPos = 17 →
    responseData Layout.spec (burstWord c a) = a.setWidth 24 <<< 17)

/-- The spec's own inference, R109: the laws of `CODEC_BURST_REQ` at this spec's burst constants, log 16. -/
def Obligations.CodecBurstRequestLaws : Prop :=
  ∀ c : Config, c.burstCmd = 0xFF#8 → c.sadrPos = 17 →
    (∀ a a' : Address, be4 (burstWord c a) = be4 (burstWord c a') → a = a') ∧
    (∀ a : Address, (be4 (burstWord c a)).head? = some 0xFF#8 ∧
      (burstWord c a).extractLsb' 0 17 = 0#17)

/-- R43, R44 and the spec's own inference in R44: the word of four received bytes has the first as its most
significant byte, and the two conversions undo each other. -/
def Obligations.WireBytesAreBigEndian : Prop :=
  (∀ b0 b1 b2 b3 : Byte, (unbe4 b0 b1 b2 b3).toNat =
    b0.toNat * 2 ^ 24 + b1.toNat * 2 ^ 16 + b2.toNat * 2 ^ 8 + b3.toNat ∧
    be4 (unbe4 b0 b1 b2 b3) = [b0, b1, b2, b3]) ∧
  (∀ w : CommandWord, ∃ b0 b1 b2 b3 : Byte, be4 w = [b0, b1, b2, b3] ∧ unbe4 b0 b1 b2 b3 = w)

/-- The spec's own inference, R68, R108 and R242 (log 16): a burst request and a write of the shifted start
address to 0x7F send the same bytes, the first of them 0xFF. -/
def Obligations.BurstRequestCollidesWithWriteTo7F : Prop :=
  ∀ (a : Agent) (startAddress : Nat) (s : State),
    s.cfg.layout = Layout.spec → s.cfg.burstCmd = 0xFF#8 → s.cfg.sadrPos = 17 → startAddress < 2 ^ 7 →
    ∃ bytes : List Byte, bytes.head? = some 0xFF#8 ∧
      exec (.codecBurstReq a startAddress) s =
        .next (s.reply (.codecBurstReq a startAddress) (.ok (.tx bytes))) ∧
      exec (.codecWrite a 0x7F (startAddress * 2 ^ 17)) s =
        .next (s.reply (.codecWrite a 0x7F (startAddress * 2 ^ 17)) (.ok (.tx bytes)))

/-! ## Raw Sample Unpacker -/

/-- R131: `UNPACK3`. -/
def Obligations.UnpackTripletGivesItsSamples : Prop :=
  ∀ (a : Agent) (b0 b1 b2 : Nat) (s : State),
    let i := Instr.unpack3 a b0 b1 b2
    i.opcode = 0x5#4 ∧
    (b0 < 2 ^ 8 → b1 < 2 ^ 8 → b2 < 2 ^ 8 →
      exec i s = .next (s.reply i (.ok (.pair (BitVec.ofNat 16 (b0 * 2 ^ 4 + b1 / 2 ^ 4))
        (BitVec.ofNat 16 (b1 % 2 ^ 4 * 2 ^ 8 + b2)))))) ∧
    (¬ (b0 < 2 ^ 8 ∧ b1 < 2 ^ 8 ∧ b2 < 2 ^ 8) →
      ∃ p, exec i s = .next (s.reply i (.fault (.operandRange p))))

/-- The spec's own inference, R132: the samples are at most 0xFFF, and `PACK3` and `UNPACK3` undo each other.
-/
def Obligations.UnpackTripletIsABijection : Prop :=
  (∀ b0 b1 b2 : Byte,
    (sampleA b0 b1).toNat ≤ 0xFFF ∧ (sampleB b1 b2).toNat ≤ 0xFFF ∧
    pack3 ((sampleA b0 b1).setWidth 12) ((sampleB b1 b2).setWidth 12) = (b0, b1, b2)) ∧
  (∀ (A B : BitVec 12) (b0 b1 b2 : Byte), pack3 A B = (b0, b1, b2) →
    sampleA b0 b1 = A.setWidth 16 ∧ sampleB b1 b2 = B.setWidth 16)

/-- R133: `UNPACK_RUN`. -/
def Obligations.UnpackRunUnpacksInOrder : Prop :=
  ∀ (a : Agent) (bytes : List Nat) (s : State),
    let i := Instr.unpackRun a bytes
    i.opcode = 0x6#4 ∧
    ((∀ b ∈ bytes, b < 2 ^ 8) → bytes.length % 3 = 0 →
      ∃ l : List Sample, exec i s = .next (s.reply i (.ok (.samples l))) ∧
        l.length = 2 * bytes.length / 3 ∧
        ∀ k b0 b1 b2 : Nat, bytes[3 * k]? = some b0 → bytes[3 * k + 1]? = some b1 →
          bytes[3 * k + 2]? = some b2 →
          l[2 * k]? = some (BitVec.ofNat 16 (b0 * 2 ^ 4 + b1 / 2 ^ 4)) ∧
          l[2 * k + 1]? = some (BitVec.ofNat 16 (b1 % 2 ^ 4 * 2 ^ 8 + b2))) ∧
    ((∀ b ∈ bytes, b < 2 ^ 8) → bytes.length % 3 ≠ 0 →
      exec i s = .next (s.reply i (.fault (.length bytes.length)))) ∧
    (¬ (∀ b ∈ bytes, b < 2 ^ 8) → ∃ p, exec i s = .next (s.reply i (.fault (.operandRange p))))

/-- The spec's own inference, R134: the laws of `UNPACK_RUN`. -/
def Obligations.UnpackRunLaws : Prop :=
  ∀ x y : List Byte, x.length % 3 = 0 → y.length % 3 = 0 →
    (unpackTriplets x).length = 2 * x.length / 3 ∧
    unpackTriplets (x ++ y) = unpackTriplets x ++ unpackTriplets y ∧
    ∀ v ∈ unpackTriplets x, v.toNat ≤ 0xFFF

/-- R135: `UNPACK_SLICE` gives what `UNPACK_RUN` gives for the bytes from offset 4 on. -/
def Obligations.UnpackSliceSkipsTheHeader : Prop :=
  ∀ (a : Agent) (slice : List Nat) (s : State),
    let i := Instr.unpackSlice a slice
    i.opcode = 0x7#4 ∧
    ((∀ b ∈ slice, b < 2 ^ 8) → 4 ≤ slice.length → (slice.length - 4) % 3 = 0 →
      ∃ l : List Sample, exec i s = .next (s.reply i (.ok (.samples l))) ∧
        exec (.unpackRun a (slice.drop 4)) s =
          .next (s.reply (.unpackRun a (slice.drop 4)) (.ok (.samples l))) ∧
        l.length = 2 * (slice.length - 4) / 3) ∧
    ((∀ b ∈ slice, b < 2 ^ 8) → (slice.length < 4 ∨ (slice.length - 4) % 3 ≠ 0) →
      exec i s = .next (s.reply i (.fault (.length slice.length)))) ∧
    (¬ (∀ b ∈ slice, b < 2 ^ 8) → ∃ p, exec i s = .next (s.reply i (.fault (.operandRange p))))

/-! ## LFSR -/

/-- R150: `LFSR_RESEED`. -/
def Obligations.LfsrReseedLoadsTheSeed : Prop :=
  ∀ (a : Agent) (s : State),
    let i := Instr.lfsrReseed a
    i.opcode = 0x8#4 ∧
    (a ≠ .producer → s.init = true →
      exec i s = .next (State.reply { s with lfsr := BitVec.ofNat 16 s.cfg.lfsrSeed } i (.ok .none))) ∧
    (a ≠ .producer → s.init = false → exec i s = .next (s.reply i (.fault .notReset))) ∧
    (a = .producer → exec i s = .next (s.reply i (.fault (.wrongAgent 0x8#4 a))))

/-- R151 (with R152's `STEP`): `LFSR_NEXT` returns the register and shifts it right by one place, the XOR of
bits 0, 3, 9 and 10 entering at the top; the value returned has `LFSR_W` bits and is not 0. -/
def Obligations.LfsrNextReturnsThenShifts : Prop :=
  ∀ s : State,
    (Instr.lfsrNext .consumer).opcode = 0x9#4 ∧
    (s.Inv → s.init = true → ∃ v : Sample,
      exec (.lfsrNext .consumer) s =
        .next (State.reply { s with lfsr := v } (.lfsrNext .consumer) (.ok (.pattern s.lfsr))) ∧
      (∀ k, k < s.cfg.lfsrW - 1 → v.getLsbD k = s.lfsr.getLsbD (k + 1)) ∧
      v.getLsbD (s.cfg.lfsrW - 1) =
        (((s.lfsr.getLsbD 0 ^^ s.lfsr.getLsbD 3) ^^ s.lfsr.getLsbD 9) ^^ s.lfsr.getLsbD 10) ∧
      v.toNat < 2 ^ s.cfg.lfsrW ∧ s.lfsr.toNat < 2 ^ s.cfg.lfsrW ∧ s.lfsr ≠ 0#16) ∧
    (s.init = false →
      exec (.lfsrNext .consumer) s = .next (s.reply (.lfsrNext .consumer) (.fault .notReset))) ∧
    (∀ a : Agent, a ≠ .consumer →
      exec (.lfsrNext a) s = .next (s.reply (.lfsrNext a) (.fault (.wrongAgent 0x9#4 a))))

/-- R152: `STEP` halves the register and puts the parity of bits 0, 3, 9 and 10 at the top. -/
def Obligations.LfsrUpdateShiftsAndTaps : Prop :=
  ∀ (width : Nat) (v : Sample), width = 12 ∨ width = 16 → v.toNat < 2 ^ width →
    (lfsrStep width v).toNat = v.toNat / 2 +
      ((v.getLsbD 0).toNat + (v.getLsbD 3).toNat + (v.getLsbD 9).toNat + (v.getLsbD 10).toNat) % 2 *
        2 ^ (width - 1)

/-- The spec's own inference, R152: at `LFSR_W = 12` the bits that shift out follow the recurrence of the
characteristic polynomial. -/
def Obligations.LfsrBitsFollowTheRecurrence : Prop :=
  ∀ (seed : Sample) (n : Nat), seed.toNat < 2 ^ 12 →
    let out : Nat → Bool := fun k => ((lfsrStep 12)^[k] seed).getLsbD 0
    out (n + 12) = (((out n ^^ out (n + 3)) ^^ out (n + 9)) ^^ out (n + 10))

/-- The spec's own inference, R154 (1): on `LFSR_W`-bit values `STEP` is a bijection that fixes 0. -/
def Obligations.LfsrUpdateIsABijection : Prop :=
  ∀ width : Nat, width = 12 ∨ width = 16 →
    lfsrStep width 0#16 = 0#16 ∧
    (∀ v : Sample, v.toNat < 2 ^ width → (lfsrStep width v).toNat < 2 ^ width) ∧
    (∀ u v : Sample, u.toNat < 2 ^ width → v.toNat < 2 ^ width →
      lfsrStep width u = lfsrStep width v → u = v) ∧
    (∀ v : Sample, v.toNat < 2 ^ width → ∃ u : Sample, u.toNat < 2 ^ width ∧ lfsrStep width u = v)

/-- The spec's own inference, R154 (2): at `LFSR_W = 12`, from every non-zero seed, the 4095 non-zero values
come once each and then the seed again. -/
def Obligations.LfsrHasFullPeriodAtTwelve : Prop :=
  ∀ seed : Sample, seed ≠ 0#16 → seed.toNat < 2 ^ 12 →
    (lfsrStep 12)^[4095] seed = seed ∧
    (∀ j k, j < k → k < 4095 → (lfsrStep 12)^[j] seed ≠ (lfsrStep 12)^[k] seed) ∧
    (∀ v : Sample, v ≠ 0#16 → v.toNat < 2 ^ 12 → ∃ k, k < 4095 ∧ (lfsrStep 12)^[k] seed = v)

/-- The spec's own inference, R154 (3): at `LFSR_W = 16` every non-zero state lies on a cycle of exactly 255
states. -/
def Obligations.LfsrCyclesHave255StatesAtSixteen : Prop :=
  ∀ v : Sample, v ≠ 0#16 →
    (lfsrStep 16)^[255] v = v ∧ ∀ k, 0 < k → k < 255 → (lfsrStep 16)^[k] v ≠ v

/-! ## Ring Buffer -/

/-- R174: `RB_PUSH`. On success the frame is in the slot `wr mod CAPACITY`, every other slot reads as
before, and the write cursor advances; the rest of the state is unchanged. -/
def Obligations.RbPushStoresOrReports : Prop :=
  ∀ (a : Agent) (frame : List Nat) (s : State),
    let i := Instr.rbPush a frame
    let wraps := 2 ^ s.cfg.cursorW % s.cfg.capacity ≠ 0 ∧ s.wr + 1 = 2 ^ s.cfg.cursorW
    i.opcode = 0xA#4 ∧
    (a ≠ .producer → exec i s = .next (s.reply i (.fault (.wrongAgent 0xA#4 a)))) ∧
    (a = .producer → s.init = false → exec i s = .next (s.reply i (.fault .notReset))) ∧
    (a = .producer → s.init = true → ¬ (∀ v ∈ frame, v < 2 ^ 16) →
      ∃ p, exec i s = .next (s.reply i (.fault (.operandRange p)))) ∧
    (a = .producer → s.init = true → (∀ v ∈ frame, v < 2 ^ 16) → frame.length ≠ s.cfg.frameLen →
      exec i s = .next (s.reply i (.fault (.length frame.length)))) ∧
    (a = .producer → s.init = true → (∀ v ∈ frame, v < 2 ^ 16) → frame.length = s.cfg.frameLen →
      (s.wr - s.rd = s.cfg.capacity →
        exec i s = .next (State.reply { s with overflow := true } i (.ok (.pushed false)))) ∧
      (s.wr - s.rd ≠ s.cfg.capacity → wraps → exec i s = .next (s.reply i (.fault .cursorWrap))) ∧
      (s.wr - s.rd ≠ s.cfg.capacity → ¬ wraps → Memory.wf (blankFrame s.cfg) s.slots →
        ∃ slots : Memory,
          exec i s = .next (State.reply { s with wr := s.wr + 1, slots := slots } i (.ok (.pushed true))) ∧
          Memory.read (blankFrame s.cfg) slots (s.wr % s.cfg.capacity) = frame.map (BitVec.ofNat 16) ∧
          ∀ k, k ≠ s.wr % s.cfg.capacity →
            Memory.read (blankFrame s.cfg) slots k = Memory.read (blankFrame s.cfg) s.slots k))

/-- R27: the overflow flag is set only by a push that finds the buffer full, and cleared only by
`SESSION_RESET`. -/
def Obligations.OverflowFlagIsSticky : Prop :=
  ∀ (i : Instr) (s t : State), exec i s = .next t →
    (s.overflow = false → t.overflow = true →
      s.wr - s.rd = s.cfg.capacity ∧ ∃ frame, i = .rbPush .producer frame ∧
        t = State.reply { s with overflow := true } i (.ok (.pushed false))) ∧
    (s.overflow = true → t.overflow = false →
      i = .sessionReset .host ∧ t.log = ⟨i, .ok .none⟩ :: s.log)

/-- R179: `RB_POP`. -/
def Obligations.RbPopReturnsTheOldestFrame : Prop :=
  ∀ (a : Agent) (s : State),
    let i := Instr.rbPop a
    i.opcode = 0xB#4 ∧
    (a ≠ .consumer → exec i s = .next (s.reply i (.fault (.wrongAgent 0xB#4 a)))) ∧
    (a = .consumer → s.init = false → exec i s = .next (s.reply i (.fault .notReset))) ∧
    (a = .consumer → s.init = true → s.wr - s.rd = 0 →
      exec i s = .next (s.reply i (.ok (.popped none)))) ∧
    (a = .consumer → s.init = true → s.wr - s.rd ≠ 0 →
      exec i s = .next (State.reply { s with rd := s.rd + 1 } i
        (.ok (.popped (some (Memory.read (blankFrame s.cfg) s.slots (s.rd % s.cfg.capacity)))))))

/-- R184, R185: `RB_STATUS` and `RB_FILL`, by any agent. -/
def Obligations.StatusAndFillReadTheView : Prop :=
  ∀ (a : Agent) (s : State),
    (Instr.rbStatus a).opcode = 0xE#4 ∧ (Instr.rbFill a).opcode = 0xC#4 ∧
    (s.init = true →
      exec (.rbStatus a) s = .next (s.reply (.rbStatus a)
        (.ok (.status ⟨s.overflow, s.wr - s.rd, s.cfg.capacity⟩))) ∧
      exec (.rbFill a) s = .next (s.reply (.rbFill a) (.ok (.fill (s.wr - s.rd)))) ∧
      (s.Inv → s.wr - s.rd ≤ s.cfg.capacity)) ∧
    (s.init = false →
      exec (.rbStatus a) s = .next (s.reply (.rbStatus a) (.fault .notReset)) ∧
      exec (.rbFill a) s = .next (s.reply (.rbFill a) (.fault .notReset)))

/-- R186, R32: `RB_WAIT` completes at once when the fill allows it and otherwise holds the consumer, whose
turns then only ask again. That a turn of the consumer is what asks again is the model's reading, log 13. -/
def Obligations.RbWaitCompletesOrHolds : Prop :=
  ∀ (a : Agent) (n : Nat) (s : State),
    let i := Instr.rbWait a n
    i.opcode = 0xD#4 ∧
    (a ≠ .consumer → exec i s = .next (s.reply i (.fault (.wrongAgent 0xD#4 a)))) ∧
    (a = .consumer → s.init = false → exec i s = .next (s.reply i (.fault .notReset))) ∧
    (a = .consumer → s.init = true → n ≤ s.wr - s.rd →
      exec i s = .next (State.reply { s with wait := none } i (.ok .none))) ∧
    (a = .consumer → s.init = true → s.wr - s.rd < n → exec i s = .next { s with wait := some n }) ∧
    (∀ rest, a = .consumer → s.cfg.WF → s.wait = some n → s.turns = .consumer :: rest →
      (n ≤ s.wr - s.rd →
        step s = .next (State.reply { s with turns := rest, wait := none } i (.ok .none))) ∧
      (s.wr - s.rd < n → step s = .next { s with turns := rest }))

/-- R187: a wait for more than `CAPACITY` frames holds the consumer for ever, however the run goes on. -/
def Obligations.WaitAboveCapacityNeverCompletes : Prop :=
  ∀ (n : Nat) (s : State), s.Inv → s.init = true → s.cfg.capacity < n →
    exec (.rbWait .consumer n) s = .next { s with wait := some n } ∧
    ∀ (k : Nat) (t : State), Host.Core.run Sys2Proof.core k { s with wait := some n } = .next t →
      t.wait = some n

/-- R250, R186: with `n ≤ CAPACITY`, as many legal pushes as frames are missing, and then a turn of the
consumer, lift its hold. Ports and turns are the model's own, log 7; that the consumer's turn completes the wait
is its reading, log 13. -/
def Obligations.PushesLiftAHeldWait : Prop :=
  ∀ (n : Nat) (frames : List (List Nat)) (rest : List Command) (later : List Agent) (s : State),
    s.Inv → s.init = true → s.wait = some n → n ≤ s.cfg.capacity →
    frames.length = n - (s.wr - s.rd) →
    (∀ f ∈ frames, f.length = s.cfg.frameLen ∧ ∀ v ∈ f, v < 2 ^ 16) →
    (2 ^ s.cfg.cursorW % s.cfg.capacity = 0 ∨ s.wr + frames.length < 2 ^ s.cfg.cursorW) →
    s.ports.producer = frames.map (fun f => encode (.rbPush .producer f)) ++ rest →
    s.turns = List.replicate frames.length .producer ++ .consumer :: later →
    ∃ t : State, Host.Core.run Sys2Proof.core (frames.length + 1) s = .next t ∧ t.wait = none ∧
      t.turns = later ∧ t.log.head? = some ⟨.rbWait .consumer n, .ok .none⟩ ∧ n ≤ t.wr - t.rd

/-- R173: a realisation with cursors of `CURSOR_W` bits computes the same fill and selects the same slots. -/
def Obligations.FiniteCursorsAgree : Prop :=
  ∀ s : State, s.Inv → s.init = true →
    finiteFill s.cfg (finiteCursor s.cfg s.rd) (finiteCursor s.cfg s.wr) = s.wr - s.rd ∧
    finiteSlot s.cfg (finiteCursor s.cfg s.wr) = s.wr % s.cfg.capacity ∧
    finiteSlot s.cfg (finiteCursor s.cfg s.rd) = s.rd % s.cfg.capacity

/-- The spec's own inference, R183, with R190: a push that is not refused writes a slot that holds no unread
frame, and afterwards every unread frame is still in the slot its position selects; a pop of a buffer that is
not empty returns the oldest unread frame. -/
def Obligations.PushSlotHoldsNoUnreadFrame : Prop :=
  ∀ (frame : List Nat) (s : State), s.Inv → s.QueueHistory → s.init = true →
    (s.wr - s.rd < s.cfg.capacity → frame.length = s.cfg.frameLen → (∀ v ∈ frame, v < 2 ^ 16) →
      (2 ^ s.cfg.cursorW % s.cfg.capacity = 0 ∨ s.wr + 1 ≠ 2 ^ s.cfg.cursorW) →
      ∃ t : State, exec (.rbPush .producer frame) s = .next t ∧
        t.slot s.pushSlot = frame.map (BitVec.ofNat 16) ∧
        ∀ p, s.rd ≤ p → p < s.wr → p % s.cfg.capacity ≠ s.pushSlot ∧
          s.pushedFrames[p]? = some (t.slot (p % s.cfg.capacity))) ∧
    (s.wr - s.rd ≠ 0 →
      ∃ f : Frame, s.pushedFrames[s.rd]? = some f ∧
        exec (.rbPop .consumer) s = .next (State.reply { s with rd := s.rd + 1 } (.rbPop .consumer)
          (.ok (.popped (some f)))))

/-- The spec's own inference, R53 and R183, and for `SESSION_RESET` the model's reading that it leaves the
slots as they were, log 4: no command changes the slot of an unread frame. -/
def Obligations.UnreadFramesAreNotOverwritten : Prop :=
  ∀ (i : Instr) (s t : State) (p : Nat), s.Inv → s.init = true → exec i s = .next t →
    s.rd ≤ p → p < s.wr → t.slot (p % s.cfg.capacity) = s.slot (p % s.cfg.capacity)

/-- The spec's own inference, R244: an observed fill stays a lower bound until the consumer's next successful
pop and an upper bound until the producer's next successful push, within a session. -/
def Obligations.ObservedFillIsOneSided : Prop :=
  ∀ s t : State, s.Inv → s.init = true → step s = .next t →
    (∀ e, t.log = e :: s.log → e.startsSession = false) →
    (t.poppedFrames = s.poppedFrames → s.wr - s.rd ≤ t.wr - t.rd) ∧
    (t.pushedFrames = s.pushedFrames → t.wr - t.rd ≤ s.wr - s.rd)

/-! ## Session, faults and the frames of all commands -/

/-- `SESSION_RESET` as the model reads R230 and R231: every slot is as it was, log 4, where the spec calls the
contents unspecified; and a wait counts as held until the consumer's turn completes it, log 21. -/
def Obligations.SessionResetStartsASession : Prop :=
  ∀ (a : Agent) (s : State),
    let i := Instr.sessionReset a
    i.opcode = 0x0#4 ∧
    (a ≠ .host → exec i s = .next (s.reply i (.fault (.wrongAgent 0x0#4 a)))) ∧
    (a = .host → s.wait ≠ none → exec i s = .next (s.reply i (.fault .resetBusy))) ∧
    (a = .host → s.wait = none →
      exec i s = .next (State.reply { s with
        lfsr := BitVec.ofNat 16 s.cfg.lfsrSeed
        rd := 0
        wr := 0
        overflow := false
        init := true } i (.ok .none)))

/-- R33, R233: the reset state is what `SESSION_RESET` leaves of a power-on state of the same configuration
with nothing listed, nothing to issue and no turn. The listed slots, that the reset leaves them, and the
configuration's open parameters are the model's choice, logs 2, 3 and 4. -/
def Obligations.ResetStateIsASessionStart : Prop :=
  ∀ u : State, u.cfg = Config.default → u.slots = [] → u.ports = ⟨[], [], []⟩ → u.turns = [] →
    exec (.sessionReset .host) (State.powerOn u) =
      .next (State.reset.reply (.sessionReset .host) (.ok .none))

/-- R202, R77: the reserved code is refused, with whatever operands and by whatever agent. -/
def Obligations.ReservedCodeIsRefused : Prop :=
  ∀ (a : Agent) (operands : List Operand) (s : State),
    decode a ⟨0xF#4, operands⟩ = .ok (.reserved0xF a operands) ∧
    exec (.reserved0xF a operands) s =
      .next (s.reply (.reserved0xF a operands) (.fault .illegalOp))

/-- R205: a command of an agent its row does not admit is refused with `F_WRONG_AGENT`, and no other command
is. -/
def Obligations.WrongAgentIsRefused : Prop :=
  ∀ (i : Instr) (s : State),
    let admitted : Prop :=
      match i with
      | .sessionReset a => a = .host
      | .lfsrReseed a => a = .consumer ∨ a = .host
      | .lfsrNext a => a = .consumer
      | .rbPush a _ => a = .producer
      | .rbPop a => a = .consumer
      | .rbWait a _ => a = .consumer
      | _ => True
    (¬ admitted → exec i s = .next (s.reply i (.fault (.wrongAgent i.opcode i.agent)))) ∧
    (admitted → ∀ op a, exec i s ≠ .next (s.reply i (.fault (.wrongAgent op a))))

/-- R207, R233: until the first reset every stateful command of an admitted agent is refused with
`F_NOT_RESET`; after it none is; the other commands never are. -/
def Obligations.NotResetIsRefused : Prop :=
  ∀ (i : Instr) (s : State),
    (0x8#4 ≤ i.opcode → i.opcode ≤ 0xE#4 → i.agent ∈ admittedAgents i.opcode → s.init = false →
      exec i s = .next (s.reply i (.fault .notReset))) ∧
    (s.init = true ∨ i.opcode < 0x8#4 ∨ i.opcode = 0xF#4 →
      exec i s ≠ .next (s.reply i (.fault .notReset)))

/-- R203: a command with an operand above its width, whose earlier checks pass, is refused with
`F_OPERAND_RANGE`; a command with none is not. -/
def Obligations.OperandRangeIsRefused : Prop :=
  ∀ (i : Instr) (s : State),
    let tooWide : Prop :=
      match i with
      | .codecWrite _ address value => 127 < address ∨ 0xFFFFFF < value
      | .codecReadReq _ address => 127 < address
      | .codecBurstReq _ startAddress => 127 < startAddress
      | .codecReadResp _ rx0 rx1 rx2 rx3 => 0xFF < rx0 ∨ 0xFF < rx1 ∨ 0xFF < rx2 ∨ 0xFF < rx3
      | .unpack3 _ b0 b1 b2 => 0xFF < b0 ∨ 0xFF < b1 ∨ 0xFF < b2
      | .unpackRun _ bytes => ∃ b ∈ bytes, 0xFF < b
      | .unpackSlice _ slice => ∃ b ∈ slice, 0xFF < b
      | .rbPush _ frame => ∃ v ∈ frame, 0xFFFF < v
      | _ => False
    (tooWide ↔ i.wellFormed = false) ∧
    (tooWide → i.agent ∈ admittedAgents i.opcode → (s.init = true ∨ i.opcode < 0x8#4) →
      ∃ p, exec i s = .next (s.reply i (.fault (.operandRange p)))) ∧
    (¬ tooWide → ∀ p, exec i s ≠ .next (s.reply i (.fault (.operandRange p))))

/-- R201, R211: a fault is reported only with its cause, and only when no fault earlier in the check order
applies. Until when a wait counts as held is the model's choice, log 21. -/
def Obligations.FaultsHaveTheirCauses : Prop :=
  ∀ (i : Instr) (s : State) (f : Fault), exec i s = .next (s.reply i (.fault f)) →
    let agentAdmitted := i.agent ∈ admittedAgents i.opcode
    let wasReset := s.init = true ∨ i.opcode < 0x8#4
    match f with
    | .illegalOp => i.opcode = 0xF#4
    | .wrongAgent op a => i.opcode ≠ 0xF#4 ∧ op = i.opcode ∧ a = i.agent ∧ ¬ agentAdmitted
    | .notReset => agentAdmitted ∧ 0x8#4 ≤ i.opcode ∧ i.opcode ≤ 0xE#4 ∧ s.init = false
    | .operandRange _ => agentAdmitted ∧ wasReset ∧ i.wellFormed = false
    | .length n => agentAdmitted ∧ wasReset ∧ i.wellFormed = true ∧
        ((∃ a bytes, i = .unpackRun a bytes ∧ n = bytes.length ∧ n % 3 ≠ 0) ∨
          (∃ a slice, i = .unpackSlice a slice ∧ n = slice.length ∧ (n < 4 ∨ (n - 4) % 3 ≠ 0)) ∨
          (∃ a frame, i = .rbPush a frame ∧ n = frame.length ∧ n ≠ s.cfg.frameLen))
    | .resetBusy => i = .sessionReset .host ∧ s.wait ≠ none
    | .cursorWrap => agentAdmitted ∧ wasReset ∧ i.wellFormed = true ∧
        (∃ a frame, i = .rbPush a frame ∧ frame.length = s.cfg.frameLen) ∧
        s.wr - s.rd ≠ s.cfg.capacity ∧ 2 ^ s.cfg.cursorW % s.cfg.capacity ≠ 0 ∧
        s.wr + 1 = 2 ^ s.cfg.cursorW

/-- R209, R200: a faulted command changes nothing but the record, the fault is in the record, and no step ever
clears the record. -/
def Obligations.FaultsChangeNothingAndAreKept : Prop :=
  (∀ (i : Instr) (s t : State) (f : Fault), exec i s = .next t → t.log = ⟨i, .fault f⟩ :: s.log →
    t = { s with log := t.log } ∧ t.faults = (i, f) :: s.faults) ∧
  (∀ s t : State, step s = .next t → s.faults <:+ t.faults ∧ (¬ s.Correct → ¬ t.Correct))

/-- The spec's own inference, R83: every command of every agent has an outcome in every state: exactly one
reply, or the hold of a consumer's wait. -/
def Obligations.EveryCommandHasAnOutcome : Prop :=
  ∀ (i : Instr) (s : State),
    (∃ (r : Reply) (t : State), exec i s = .next t ∧ t.log = ⟨i, r⟩ :: s.log) ∨
    (∃ n, i = .rbWait .consumer n ∧ s.init = true ∧ s.wr - s.rd < n ∧
      exec i s = .next { s with wait := some n })

/-- R29: who advances which cursor and the LFSR, and which slot a push writes. That `SESSION_RESET` too leaves
every slot reading as before is the model's reading, log 4: R33 leaves the contents unspecified. -/
def Obligations.WritersKeepTheirDiscipline : Prop :=
  ∀ (i : Instr) (s t : State), Memory.wf (blankFrame s.cfg) s.slots → exec i s = .next t →
    (t.wr ≠ s.wr → i = .sessionReset .host ∨
      t.wr = s.wr + 1 ∧ ∃ frame, i = .rbPush .producer frame) ∧
    (t.rd ≠ s.rd → i = .sessionReset .host ∨ t.rd = s.rd + 1 ∧ i = .rbPop .consumer) ∧
    (t.lfsr ≠ s.lfsr → i = .lfsrNext .consumer ∨
      t.lfsr = BitVec.ofNat 16 s.cfg.lfsrSeed ∧
        (i = .sessionReset .host ∨ i = .lfsrReseed .consumer ∨ i = .lfsrReseed .host)) ∧
    (∀ k, t.slot k ≠ s.slot k →
      (∃ frame, i = .rbPush .producer frame) ∧ k = s.wr % s.cfg.capacity)

/-- R11, R20, R32, R209: what no command changes, and which command may change `S.init` and the held wait. The
ports, the turns and the log are the model's own fields, logs 7 and 12; that no other command ends a wait is its
reading, logs 13 and 21. -/
def Obligations.CommandsKeepTheRest : Prop :=
  ∀ (i : Instr) (s t : State), exec i s = .next t →
    t.cfg = s.cfg ∧ t.ports = s.ports ∧ t.turns = s.turns ∧
    (t.log = s.log ∨ ∃ r, t.log = ⟨i, r⟩ :: s.log) ∧
    (t.init ≠ s.init → i = .sessionReset .host) ∧
    (t.wait ≠ s.wait → ∃ n, i = .rbWait .consumer n)

/-- R31: the codec and unpacker commands write no state, and what they answer depends on their operands
alone: two states of one configuration give one reply. -/
def Obligations.PureCommandsUseNoState : Prop :=
  ∀ (i : Instr) (s s' : State), 0x1#4 ≤ i.opcode → i.opcode ≤ 0x7#4 → s.cfg = s'.cfg →
    ∃ r : Reply, exec i s = .next (s.reply i r) ∧ exec i s' = .next (s'.reply i r)

/-! ## Steps, invariants and histories -/

/-- A turn issues the command at the head of the agent's port. A held consumer issues nothing (R32), an agent
with nothing to issue does nothing, and without a turn nothing happens (logs 7, 8 and 14). -/
def Obligations.StepRunsTheDecodedCommand : Prop :=
  ∀ s : State, s.cfg.WF →
    (s.turns = [] → step s = .next s) ∧
    ∀ (a : Agent) (rest : List Agent), s.turns = a :: rest → (a = .consumer → s.wait = none) →
      (s.ports.of a = [] → step s = .next { s with turns := rest }) ∧
      ∀ (c : Command) (cs : List Command), s.ports.of a = c :: cs →
        (∀ i, decode a c = .ok i →
          step s = exec i { s with turns := rest, ports := s.ports.put a cs }) ∧
        (∀ e, decode a c = .error e → step s = .refused (.malformedCommand e))

/-- R32: while a wait is held the consumer's commands stay where they are. When the hold ends is the model's
reading, logs 13 and 21. -/
def Obligations.HeldConsumerIssuesNothing : Prop :=
  ∀ (n : Nat) (s t : State), s.wait = some n → step s = .next t →
    t.ports.consumer = s.ports.consumer ∧
    (t.wait ≠ some n → t.wait = none ∧ n ≤ t.wr - t.rd ∧
      t.log = ⟨.rbWait .consumer n, .ok .none⟩ :: s.log)

/-- R12: an ill-formed configuration is refused before any step, and only that is. -/
def Obligations.IllFormedConfigurationIsRefused : Prop :=
  ∀ s : State,
    let c := s.cfg
    let l := c.layout
    let disjointInside : Prop :=
      l.addrPos ≤ 25 ∧ l.wrPos ≤ 31 ∧ l.dataPos ≤ 8 ∧
      ∀ b, ¬ ((l.addrPos ≤ b ∧ b ≤ l.addrPos + 6) ∧ b = l.wrPos) ∧
        ¬ ((l.addrPos ≤ b ∧ b ≤ l.addrPos + 6) ∧ (l.dataPos ≤ b ∧ b ≤ l.dataPos + 23)) ∧
        ¬ (b = l.wrPos ∧ (l.dataPos ≤ b ∧ b ≤ l.dataPos + 23))
    step s = .refused .illFormedConfig ↔
      ¬ (c.lfsrSeed ≠ 0 ∧ c.lfsrSeed < 2 ^ c.lfsrW ∧ (c.lfsrW = 12 ∨ c.lfsrW = 16) ∧
        1 ≤ c.capacity ∧ c.capacity < 2 ^ c.cursorW ∧ 1 ≤ c.cursorW ∧ 1 ≤ c.frameLen ∧
        c.sadrPos ≤ 25 ∧ disjointInside)

/-- The spec's own inference, R24 and R28, with R173: every step keeps the machine's invariant. -/
def Obligations.StepKeepsTheInvariant : Prop :=
  ∀ s t : State, s.Inv → step s = .next t → t.Inv

/-- R33: the reset state meets the invariant and both histories, and so does it with any commands and turns
placed. -/
def Obligations.ResetMeetsTheInvariant : Prop :=
  ∀ (p : Ports) (ts : List Agent),
    let s := { State.reset with ports := p, turns := ts }
    s.Inv ∧ s.QueueHistory ∧ s.PatternHistory

/-- The spec's own inference, R182 and R189 to R191: every step keeps the queue's history. -/
def Obligations.StepKeepsTheQueueHistory : Prop :=
  ∀ s t : State, s.Inv → (s.init = true → s.QueueHistory) → step s = .next t →
    t.init = true → t.QueueHistory

/-- The spec's own inference, R154 (4): every step keeps the generator's history, so the values drawn depend
only on the seed and their number. -/
def Obligations.StepKeepsThePatternHistory : Prop :=
  ∀ s t : State, (s.init = true → s.PatternHistory) → step s = .next t →
    t.init = true → t.PatternHistory

/-- The spec's own inference, R189 and R191: whatever the configuration, the commands placed and the order of
the turns, after any number of steps from a session start the frames popped are the first ones pushed, in
order, the cursors count them, and the fill is at most `CAPACITY`. The unlisted slots at the start are the
model's choice, log 3, and the ports and turns its own, log 7. -/
def Obligations.FramesLeaveInTheOrderTheyEntered : Prop :=
  ∀ (c : Config) (p : Ports) (ts : List Agent) (k : Nat) (t : State), c.WF →
    Host.Core.run Sys2Proof.core k
      { State.reset with
        cfg := c
        lfsr := BitVec.ofNat 16 c.lfsrSeed
        ports := p
        turns := ts } = .next t →
    t.poppedFrames <+: t.pushedFrames ∧ t.pushedFrames.length = t.wr ∧ t.poppedFrames.length = t.rd ∧
    t.rd ≤ t.wr ∧ t.wr - t.rd ≤ c.capacity

/-! ## Encoding -/

/-- R74, R75: a command's record decodes to the command, and a record that decodes is the command's: no
operand is dropped or added. -/
def Obligations.DecodeAndEncodeAgree : Prop :=
  (∀ i : Instr, decode i.agent (encode i) = .ok i) ∧
  (∀ (a : Agent) (c : Command) (i : Instr), decode a c = .ok i → encode i = c ∧ i.agent = a)

/-- R75: a few records written out from the table, and what they decode to. -/
def Obligations.TableRecordsDecode : Prop :=
  decode .host ⟨0b0000#4, []⟩ = .ok (.sessionReset .host) ∧
  decode .producer ⟨0b0001#4, [.num 0x2A, .num 0x000001]⟩ = .ok (.codecWrite .producer 0x2A 1) ∧
  decode .consumer ⟨0b0101#4, [.num 0xAB, .num 0xCD, .num 0xEF]⟩ =
    .ok (.unpack3 .consumer 0xAB 0xCD 0xEF) ∧
  decode .consumer ⟨0b1001#4, []⟩ = .ok (.lfsrNext .consumer) ∧
  decode .producer ⟨0b1010#4, [.seq [0x100, 0x200]]⟩ = .ok (.rbPush .producer [0x100, 0x200]) ∧
  decode .consumer ⟨0b1101#4, [.num 6]⟩ = .ok (.rbWait .consumer 6)

/-- The spec's own inference, R83: decoding is total. The code alone selects the operation, every code has a
command, and the only refusal is that the operands are not of the types the code requires. -/
def Obligations.DecodingIsTotal : Prop :=
  ∀ (a : Agent) (op : OpCode),
    (∀ operands : List Operand,
      (∃ i, decode a ⟨op, operands⟩ = .ok i ∧ i.opcode = op ∧ i.agent = a) ∨
      (decode a ⟨op, operands⟩ = .error (.operandTypes op) ∧ op ≠ 0xF#4)) ∧
    ∃ operands i, decode a ⟨op, operands⟩ = .ok i
end

