-- ==== Sys2Proof/Laws/Outcome.lean ====
section
/-! SUPPORT. What the shared operations of the meanings can do: the checks, the attempt of a command, the hold
of a wait and the unpacking of a run. -/

namespace Sys2Proof.Machine

section checks
variable {op : OpCode} {a : Agent} {s : State} {bits position v len : Nat} {vs : List Nat} {legal : Bool}

@[simp] theorem wrongAgent_eq_none : wrongAgent op a = none ↔ a ∈ admittedAgents op := by
  simp [wrongAgent]

theorem some_eq_wrongAgent {f : Fault} :
    some f = wrongAgent op a ↔ a ∉ admittedAgents op ∧ f = .wrongAgent op a := by
  by_cases h : a ∈ admittedAgents op <;> simp [wrongAgent, h, eq_comm]

theorem some_eq_notReset {f : Fault} : some f = notReset s ↔ s.init = false ∧ f = .notReset := by
  cases h : s.init <;> simp [notReset, h, eq_comm]

theorem some_eq_outOfRange {f : Fault} :
    some f = outOfRange bits position v ↔ ¬ v < 2 ^ bits ∧ f = .operandRange position := by
  by_cases h : v < 2 ^ bits <;> simp [outOfRange, h, eq_comm]

theorem some_eq_anyOutOfRange {f : Fault} :
    some f = anyOutOfRange bits position vs ↔ (¬ ∀ v ∈ vs, v < 2 ^ bits) ∧ f = .operandRange position := by
  by_cases h : ∀ v ∈ vs, v < 2 ^ bits <;> simp [anyOutOfRange, h]

theorem some_eq_badLength {f : Fault} :
    some f = badLength legal len ↔ legal = false ∧ f = .length len := by
  cases legal <;> simp [badLength, eq_comm]

theorem some_eq_resetBusy {f : Fault} : some f = resetBusy s ↔ s.wait ≠ none ∧ f = .resetBusy := by
  unfold resetBusy; cases s.wait <;> simp [eq_comm]

theorem wrongAgent_eq_some (h : a ∉ admittedAgents op) : wrongAgent op a = some (.wrongAgent op a) :=
  if_neg h

theorem notReset_eq_some (h : s.init = false) : notReset s = some .notReset := by simp [notReset, h]

theorem outOfRange_eq_some (h : ¬ v < 2 ^ bits) :
    outOfRange bits position v = some (.operandRange position) :=
  if_neg h

theorem anyOutOfRange_eq_some (h : ¬ ∀ v ∈ vs, v < 2 ^ bits) :
    anyOutOfRange bits position vs = some (.operandRange position) :=
  if_neg h

theorem badLength_eq_some (h : legal = false) : badLength legal len = some (.length len) := by
  simp [badLength, h]

theorem resetBusy_eq_some (h : s.wait ≠ none) : resetBusy s = some .resetBusy := by
  unfold resetBusy; cases hw : s.wait <;> simp_all

@[simp] theorem notReset_eq_none : notReset s = none ↔ s.init = true := by
  unfold notReset; split <;> simp_all

@[simp] theorem outOfRange_eq_none : outOfRange bits position v = none ↔ v < 2 ^ bits := by
  simp [outOfRange]

@[simp] theorem anyOutOfRange_eq_none :
    anyOutOfRange bits position vs = none ↔ ∀ v ∈ vs, v < 2 ^ bits := by
  simp [anyOutOfRange]

@[simp] theorem badLength_eq_none : badLength legal len = none ↔ legal = true := by
  unfold badLength; split <;> simp_all

@[simp] theorem resetBusy_eq_none : resetBusy s = none ↔ s.wait = none := by
  unfold resetBusy; cases s.wait <;> simp

end checks

section attempt
variable {i : Instr} {checks : List (Option Fault)} {s t : State}
  {effect : Host.Outcome State Fault Refusal}

@[simp] theorem attempt_nil : attempt i [] s effect = effect := rfl

@[simp] theorem attempt_cons_none : attempt i (none :: checks) s effect = attempt i checks s effect := rfl

@[simp] theorem attempt_cons_some {f : Fault} : attempt i (some f :: checks) s effect = raise i f s := rfl

/-- With no check failing the command's own pseudocode runs. -/
theorem attempt_pass (h : ∀ c ∈ checks, c = none) : attempt i checks s effect = effect := by
  have : checks.findSome? id = none := by simpa [List.findSome?_eq_none_iff] using h
  simp [attempt, this]

/-- The first check that fails is the fault reported. -/
theorem attempt_fail {before after : List (Option Fault)} {f : Fault} (h : ∀ c ∈ before, c = none) :
    attempt i (before ++ some f :: after) s effect = raise i f s := by
  have hb : before.findSome? id = none := by simpa [List.findSome?_eq_none_iff] using h
  simp [attempt, List.findSome?_append, hb]

/-- Everything an attempt can do: report one of its checks' faults, or run the pseudocode. -/
theorem attempt_cases (h : attempt i checks s effect = .next t) :
    (∃ f, some f ∈ checks ∧ t = s.reply i (.fault f)) ∨ ((∀ c ∈ checks, c = none) ∧ effect = .next t) := by
  unfold attempt at h
  split at h
  · rename_i f hf
    obtain ⟨c, hc, hcf⟩ := List.exists_of_findSome?_eq_some hf
    exact .inl ⟨f, by simpa using hcf ▸ hc, by simpa [raise] using h.symm⟩
  · rename_i hf
    exact .inr ⟨by simpa [List.findSome?_eq_none_iff] using hf, h⟩

/-- Everything the check of a wait can do: complete it, or hold the consumer. -/
theorem holdUntil_cases {a : Agent} {n : Nat} (h : holdUntil a n s = .next t) :
    (n ≤ s.fill ∧ t = State.reply { s with wait := none } (.rbWait a n) (.ok .none)) ∨
    (s.fill < n ∧ t = { s with wait := some n }) := by
  unfold holdUntil at h
  split at h
  · rename_i hn
    exact .inl ⟨hn, by simpa [finish] using h.symm⟩
  · exact .inr ⟨by omega, by simpa using h.symm⟩

end attempt

section unpack

@[simp] theorem unpackTriplets_nil : unpackTriplets [] = [] := rfl

@[simp] theorem unpackTriplets_cons (b0 b1 b2 : Byte) (rest : List Byte) :
    unpackTriplets (b0 :: b1 :: b2 :: rest) = sampleA b0 b1 :: sampleB b1 b2 :: unpackTriplets rest := rfl

/-- A list whose length is a multiple of 3 is empty or starts with a triplet of a shorter such list. -/
theorem triplet_cases {l : List Byte} (h : l.length % 3 = 0) :
    l = [] ∨ ∃ b0 b1 b2 rest, l = b0 :: b1 :: b2 :: rest ∧ rest.length % 3 = 0 := by
  match l, h with
  | [], _ => exact .inl rfl
  | [_], h => simp at h
  | [_, _], h => simp at h
  | b0 :: b1 :: b2 :: rest, h =>
    simp only [List.length_cons] at h
    exact .inr ⟨b0, b1, b2, rest, rfl, by omega⟩

@[simp] theorem toBytes_length (vs : List Nat) : (toBytes vs).length = vs.length := by simp [toBytes]

@[simp] theorem toFrame_length (vs : List Nat) : (toFrame vs).length = vs.length := by simp [toFrame]

end unpack

end Sys2Proof.Machine
end

