-- ==== Sys2Proof/Laws/State.lean ====
section
/-! SUPPORT. What each update of the state leaves in each field. -/

namespace Sys2Proof.Machine

section reply
variable (s : State) (i : Instr) (r : Reply)
@[simp] theorem State.reply_cfg : (s.reply i r).cfg = s.cfg := rfl
@[simp] theorem State.reply_lfsr : (s.reply i r).lfsr = s.lfsr := rfl
@[simp] theorem State.reply_rd : (s.reply i r).rd = s.rd := rfl
@[simp] theorem State.reply_wr : (s.reply i r).wr = s.wr := rfl
@[simp] theorem State.reply_slots : (s.reply i r).slots = s.slots := rfl
@[simp] theorem State.reply_overflow : (s.reply i r).overflow = s.overflow := rfl
@[simp] theorem State.reply_init : (s.reply i r).init = s.init := rfl
@[simp] theorem State.reply_wait : (s.reply i r).wait = s.wait := rfl
@[simp] theorem State.reply_ports : (s.reply i r).ports = s.ports := rfl
@[simp] theorem State.reply_turns : (s.reply i r).turns = s.turns := rfl
@[simp] theorem State.reply_log : (s.reply i r).log = ⟨i, r⟩ :: s.log := rfl
@[simp] theorem State.reply_slot (k : Nat) : (s.reply i r).slot k = s.slot k := rfl
@[simp] theorem State.reply_fill : (s.reply i r).fill = s.fill := rfl
end reply

section startSession
variable (s : State)
@[simp] theorem State.startSession_cfg : s.startSession.cfg = s.cfg := rfl
@[simp] theorem State.startSession_lfsr :
    s.startSession.lfsr = BitVec.ofNat 16 s.cfg.lfsrSeed := rfl
@[simp] theorem State.startSession_rd : s.startSession.rd = 0 := rfl
@[simp] theorem State.startSession_wr : s.startSession.wr = 0 := rfl
@[simp] theorem State.startSession_slots : s.startSession.slots = s.slots := rfl
@[simp] theorem State.startSession_overflow : s.startSession.overflow = false := rfl
@[simp] theorem State.startSession_init : s.startSession.init = true := rfl
@[simp] theorem State.startSession_wait : s.startSession.wait = s.wait := rfl
@[simp] theorem State.startSession_ports : s.startSession.ports = s.ports := rfl
@[simp] theorem State.startSession_turns : s.startSession.turns = s.turns := rfl
@[simp] theorem State.startSession_log : s.startSession.log = s.log := rfl
end startSession

section setOverflow
variable (s : State)
@[simp] theorem State.setOverflow_cfg : s.setOverflow.cfg = s.cfg := rfl
@[simp] theorem State.setOverflow_lfsr : s.setOverflow.lfsr = s.lfsr := rfl
@[simp] theorem State.setOverflow_rd : s.setOverflow.rd = s.rd := rfl
@[simp] theorem State.setOverflow_wr : s.setOverflow.wr = s.wr := rfl
@[simp] theorem State.setOverflow_slots : s.setOverflow.slots = s.slots := rfl
@[simp] theorem State.setOverflow_overflow : s.setOverflow.overflow = true := rfl
@[simp] theorem State.setOverflow_init : s.setOverflow.init = s.init := rfl
@[simp] theorem State.setOverflow_wait : s.setOverflow.wait = s.wait := rfl
@[simp] theorem State.setOverflow_ports : s.setOverflow.ports = s.ports := rfl
@[simp] theorem State.setOverflow_turns : s.setOverflow.turns = s.turns := rfl
@[simp] theorem State.setOverflow_log : s.setOverflow.log = s.log := rfl
@[simp] theorem State.setOverflow_slot (k : Nat) : s.setOverflow.slot k = s.slot k := rfl
end setOverflow

section publish
variable (s : State) (f : Frame)
@[simp] theorem State.publish_cfg : (s.publish f).cfg = s.cfg := rfl
@[simp] theorem State.publish_lfsr : (s.publish f).lfsr = s.lfsr := rfl
@[simp] theorem State.publish_rd : (s.publish f).rd = s.rd := rfl
@[simp] theorem State.publish_wr : (s.publish f).wr = s.wr + 1 := rfl
@[simp] theorem State.publish_slots :
    (s.publish f).slots = s.slots.write (blankFrame s.cfg) s.pushSlot f := rfl
@[simp] theorem State.publish_overflow : (s.publish f).overflow = s.overflow := rfl
@[simp] theorem State.publish_init : (s.publish f).init = s.init := rfl
@[simp] theorem State.publish_wait : (s.publish f).wait = s.wait := rfl
@[simp] theorem State.publish_ports : (s.publish f).ports = s.ports := rfl
@[simp] theorem State.publish_turns : (s.publish f).turns = s.turns := rfl
@[simp] theorem State.publish_log : (s.publish f).log = s.log := rfl
end publish

section release
variable (s : State)
@[simp] theorem State.release_cfg : s.release.cfg = s.cfg := rfl
@[simp] theorem State.release_lfsr : s.release.lfsr = s.lfsr := rfl
@[simp] theorem State.release_rd : s.release.rd = s.rd + 1 := rfl
@[simp] theorem State.release_wr : s.release.wr = s.wr := rfl
@[simp] theorem State.release_slots : s.release.slots = s.slots := rfl
@[simp] theorem State.release_overflow : s.release.overflow = s.overflow := rfl
@[simp] theorem State.release_init : s.release.init = s.init := rfl
@[simp] theorem State.release_wait : s.release.wait = s.wait := rfl
@[simp] theorem State.release_ports : s.release.ports = s.ports := rfl
@[simp] theorem State.release_turns : s.release.turns = s.turns := rfl
@[simp] theorem State.release_log : s.release.log = s.log := rfl
@[simp] theorem State.release_slot (k : Nat) : s.release.slot k = s.slot k := rfl
end release

section ports
variable (p : Ports) (a b : Agent) (cs : List Command)
@[simp] theorem Ports.of_put_same : (p.put a cs).of a = cs := by cases a <;> rfl

theorem Ports.of_put_other (h : b ≠ a) : (p.put a cs).of b = p.of b := by
  cases a <;> cases b <;> first | rfl | exact absurd rfl h
end ports

end Sys2Proof.Machine
end

