-- ==== Sys2Proof/Laws/Exec.lean ====
section
/-! SUPPORT. Everything a command and a step can do, said once: the inversion lemmas of `exec` and `step`. -/

namespace Sys2Proof.Machine

/-- A completed command that neither seeds, draws, pushes, pops nor drops. -/
structure Event.Calm (e : Event) : Prop where
  startsSession : e.startsSession = false
  reseeds : e.reseeds = false
  pushedFrame : e.pushedFrame = none
  poppedFrame : e.poppedFrame = none
  isDrop : e.isDrop = false
  drawnValue : e.drawnValue = none

theorem Event.calm_of_fault (i : Instr) (f : Fault) : Event.Calm ⟨i, .fault f⟩ := by
  constructor <;> cases i <;> rfl

theorem Event.calm_of_wait (a : Agent) (n : Nat) (r : Result) (h : r = .none) :
    Event.Calm ⟨.rbWait a n, .ok r⟩ := by
  subst h; constructor <;> rfl

/-- The ways a command can leave the state `s`. -/
inductive ExecStep (s : State) : Instr → State → Prop
  /-- refused with a fault -/
  | fault (i : Instr) (f : Fault) : ExecStep s i (s.reply i (.fault f))
  /-- a result that only reads: the pure commands, the status view and an empty pop -/
  | read (i : Instr) (r : Result) (calm : Event.Calm ⟨i, .ok r⟩) : ExecStep s i (s.reply i (.ok r))
  | reset (wait : s.wait = none) :
      ExecStep s (.sessionReset .host) (s.startSession.reply (.sessionReset .host) (.ok .none))
  | reseed (a : Agent) (agent : a ≠ .producer) (init : s.init = true) :
      ExecStep s (.lfsrReseed a)
        (State.reply { s with lfsr := BitVec.ofNat 16 s.cfg.lfsrSeed } (.lfsrReseed a) (.ok .none))
  | draw (init : s.init = true) :
      ExecStep s (.lfsrNext .consumer)
        (State.reply { s with lfsr := lfsrStep s.cfg.lfsrW s.lfsr } (.lfsrNext .consumer)
          (.ok (.pattern s.lfsr)))
  | drop (frame : List Nat) (init : s.init = true) (full : s.fill = s.cfg.capacity) :
      ExecStep s (.rbPush .producer frame)
        (s.setOverflow.reply (.rbPush .producer frame) (.ok (.pushed false)))
  | push (frame : List Nat) (init : s.init = true) (range : ∀ v ∈ frame, v < 2 ^ 16)
      (length : frame.length = s.cfg.frameLen) (room : s.fill ≠ s.cfg.capacity)
      (noWrap : s.wouldWrap = false) :
      ExecStep s (.rbPush .producer frame)
        ((s.publish (toFrame frame)).reply (.rbPush .producer frame) (.ok (.pushed true)))
  | pop (init : s.init = true) (occupied : s.fill ≠ 0) :
      ExecStep s (.rbPop .consumer)
        (s.release.reply (.rbPop .consumer) (.ok (.popped (some (s.slot s.popSlot)))))
  | lifted (n : Nat) (init : s.init = true) (fill : n ≤ s.fill) :
      ExecStep s (.rbWait .consumer n)
        (State.reply { s with wait := none } (.rbWait .consumer n) (.ok .none))
  | held (n : Nat) (init : s.init = true) (fill : s.fill < n) :
      ExecStep s (.rbWait .consumer n) { s with wait := some n }

/-- Everything a command can do. -/
theorem exec_cases {i : Instr} {s t : State} (h : exec i s = .next t) : ExecStep s i t := by
  cases i with
  | reserved0xF a operands =>
    simp only [exec, execReserved0xF, raise, Host.Outcome.next.injEq] at h
    exact h ▸ .fault _ _
  | sessionReset a =>
    rcases attempt_cases h with ⟨f, -, rfl⟩ | ⟨hc, he⟩
    · exact .fault _ _
    · simp only [finish, Host.Outcome.next.injEq] at he
      subst he
      simp [admittedAgents] at hc
      obtain ⟨rfl, hw⟩ := hc
      exact .reset hw
  | lfsrReseed a =>
    rcases attempt_cases h with ⟨f, -, rfl⟩ | ⟨hc, he⟩
    · exact .fault _ _
    · simp only [finish, Host.Outcome.next.injEq] at he
      subst he
      simp [admittedAgents] at hc
      exact .reseed a (by rintro rfl; simp at hc) hc.2
  | lfsrNext a =>
    rcases attempt_cases h with ⟨f, -, rfl⟩ | ⟨hc, he⟩
    · exact .fault _ _
    · simp only [finish, Host.Outcome.next.injEq] at he
      subst he
      simp [admittedAgents] at hc
      obtain ⟨rfl, hi⟩ := hc
      exact .draw hi
  | rbPush a frame =>
    rcases attempt_cases h with ⟨f, -, rfl⟩ | ⟨hc, he⟩
    · exact .fault _ _
    · simp [admittedAgents] at hc
      obtain ⟨rfl, hi, hr, hl⟩ := hc
      split at he
      · rename_i hf
        simp only [finish, Host.Outcome.next.injEq] at he
        subst he
        exact .drop frame hi (by simpa [State.isFull] using hf)
      · rename_i hf
        split at he
        · simp only [raise, Host.Outcome.next.injEq] at he
          exact he ▸ .fault _ _
        · rename_i hw
          simp only [finish, Host.Outcome.next.injEq] at he
          subst he
          exact .push frame hi hr hl (by simpa [State.isFull] using hf) (by simpa using hw)
  | rbPop a =>
    rcases attempt_cases h with ⟨f, -, rfl⟩ | ⟨hc, he⟩
    · exact .fault _ _
    · simp [admittedAgents] at hc
      obtain ⟨rfl, hi⟩ := hc
      split at he <;> simp only [finish, Host.Outcome.next.injEq] at he <;> subst he
      · exact .read _ _ ⟨rfl, rfl, rfl, rfl, rfl, rfl⟩
      · rename_i hf
        exact .pop hi (by simpa [State.isEmpty] using hf)
  | rbWait a n =>
    rcases attempt_cases h with ⟨f, -, rfl⟩ | ⟨hc, he⟩
    · exact .fault _ _
    · simp [admittedAgents] at hc
      obtain ⟨rfl, hi⟩ := hc
      rcases holdUntil_cases he with ⟨hn, rfl⟩ | ⟨hn, rfl⟩
      · exact .lifted n hi hn
      · exact .held n hi hn
  | _ =>
    rcases attempt_cases h with ⟨f, -, rfl⟩ | ⟨-, he⟩
    · exact .fault _ _
    · simp only [finish, Host.Outcome.next.injEq] at he
      subst he
      exact .read _ _ ⟨rfl, rfl, rfl, rfl, rfl, rfl⟩

/-- The ways a step can leave the state `s`. -/
inductive StepCase (s : State) : State → Prop
  /-- no agent has a turn -/
  | idle (turns : s.turns = []) : StepCase s s
  /-- the agent whose turn it is has nothing to issue -/
  | silent (a : Agent) (rest : List Agent) (turns : s.turns = a :: rest) :
      StepCase s { s with turns := rest }
  /-- a held consumer's turn: its wait is asked again -/
  | poll (n : Nat) (rest : List Agent) (t : State) (turns : s.turns = .consumer :: rest)
      (wait : s.wait = some n) (turn : holdUntil .consumer n { s with turns := rest } = .next t) :
      StepCase s t
  /-- the agent issues its next command -/
  | issue (a : Agent) (rest : List Agent) (c : Command) (cs : List Command) (i : Instr) (t : State)
      (turns : s.turns = a :: rest) (free : a = .consumer → s.wait = none) (port : s.ports.of a = c :: cs)
      (decoded : decode a c = .ok i)
      (run : exec i { s with turns := rest, ports := s.ports.put a cs } = .next t) : StepCase s t

theorem issueNext_cases {a : Agent} {s t : State} (h : issueNext a s = .next t) :
    t = s ∨ ∃ c cs i, s.ports.of a = c :: cs ∧ decode a c = .ok i ∧
      exec i { s with ports := s.ports.put a cs } = .next t := by
  unfold issueNext at h
  split at h
  · exact .inl (by simpa using h.symm)
  · rename_i c cs hp
    split at h
    · rename_i i hd
      exact .inr ⟨c, cs, i, hp, hd, h⟩
    · simp at h

/-- Everything a step can do. -/
theorem step_cases {s t : State} (h : step s = .next t) : s.cfg.WF ∧ StepCase s t := by
  unfold step at h
  split at h
  · rename_i hwf
    refine ⟨hwf, ?_⟩
    unfold runTurn at h
    split at h
    · rename_i ht
      simp only [Host.Outcome.next.injEq] at h
      exact h ▸ .idle ht
    · rename_i a rest ht
      unfold takeTurn at h
      split at h
      · rename_i n hw
        exact .poll n rest t ht hw h
      · rename_i hw
        rcases issueNext_cases h with rfl | ⟨c, cs, i, hp, hd, hx⟩
        · exact .silent _ rest ht
        · refine .issue _ rest c cs i t ht ?_ hp hd hx
          rintro rfl
          cases hs : s.wait with
          | none => rfl
          | some n => exact absurd hs (by simpa using hw n rfl)
  · simp at h

end Sys2Proof.Machine
end

