-- ==== Sys2Proof/Laws/Checks.lean ====
section
/-! SUPPORT. Every command as its checks, in the order of spec/60_exceptions.md R211, followed by its own
pseudocode; and which replies the pseudocode alone can give. -/

namespace Sys2Proof.Machine

/-- The checks a command makes before its own pseudocode, first one first. -/
def checksOf (s : State) : Instr → List (Option Fault)
  | .sessionReset a => [wrongAgent 0x0#4 a, resetBusy s]
  | .codecWrite a address value => [wrongAgent 0x1#4 a, outOfRange 7 0 address, outOfRange 24 1 value]
  | .codecReadReq a address => [wrongAgent 0x2#4 a, outOfRange 7 0 address]
  | .codecReadResp a rx0 rx1 rx2 rx3 => [wrongAgent 0x3#4 a, anyOutOfRange 8 0 [rx0, rx1, rx2, rx3]]
  | .codecBurstReq a startAddress => [wrongAgent 0x4#4 a, outOfRange 7 0 startAddress]
  | .unpack3 a b0 b1 b2 => [wrongAgent 0x5#4 a, outOfRange 8 0 b0, outOfRange 8 1 b1, outOfRange 8 2 b2]
  | .unpackRun a bytes =>
    [wrongAgent 0x6#4 a, anyOutOfRange 8 0 bytes, badLength (bytes.length % 3 == 0) bytes.length]
  | .unpackSlice a slice =>
    [wrongAgent 0x7#4 a, anyOutOfRange 8 0 slice,
      badLength (decide (4 ≤ slice.length) && (slice.length - 4) % 3 == 0) slice.length]
  | .lfsrReseed a => [wrongAgent 0x8#4 a, notReset s]
  | .lfsrNext a => [wrongAgent 0x9#4 a, notReset s]
  | .rbPush a frame =>
    [wrongAgent 0xA#4 a, notReset s, anyOutOfRange 16 0 frame,
      badLength (frame.length == s.cfg.frameLen) frame.length]
  | .rbPop a => [wrongAgent 0xB#4 a, notReset s]
  | .rbFill a => [wrongAgent 0xC#4 a, notReset s]
  | .rbWait a _ => [wrongAgent 0xD#4 a, notReset s]
  | .rbStatus a => [wrongAgent 0xE#4 a, notReset s]
  | .reserved0xF _ _ => [some .illegalOp]

/-- Every command is an attempt with these checks, and its own pseudocode raises at most `F_CURSOR_WRAP`, which
only `RB_PUSH` does. -/
theorem exec_eq_attempt (i : Instr) (s : State) :
    ∃ effect, exec i s = attempt i (checksOf s i) s effect ∧
      ∀ f, effect = .next (s.reply i (.fault f)) →
        f = .cursorWrap ∧ s.isFull = false ∧ s.wouldWrap = true ∧ ∃ a frame, i = .rbPush a frame := by
  cases i with
  | rbPush a frame =>
    refine ⟨_, rfl, fun f h => ?_⟩
    split at h
    · simp [finish, State.reply] at h
    · split at h
      · rename_i hf hw
        simp [raise, State.reply] at h
        exact ⟨h.symm, by simpa using hf, hw, a, frame, rfl⟩
      · simp [finish, State.reply] at h
  | rbPop a =>
    refine ⟨_, rfl, fun f h => ?_⟩
    split at h <;> simp [finish, State.reply] at h
  | rbWait a n =>
    refine ⟨_, rfl, fun f h => ?_⟩
    simp only [holdUntil] at h
    split at h <;> simp [finish, State.reply] at h
  | reserved0xF a operands =>
    exact ⟨.refused .illFormedConfig, rfl, fun f h => nomatch h⟩
  | _ => exact ⟨_, rfl, fun f h => by simp [finish, State.reply] at h⟩

/-- A command that ends with a fault reports the first of its checks that fails, or `F_CURSOR_WRAP` from a push
whose checks all pass. -/
theorem exec_fault_cases {i : Instr} {s : State} {f : Fault}
    (h : exec i s = .next (s.reply i (.fault f))) :
    (checksOf s i).findSome? id = some f ∨
    ((∀ c ∈ checksOf s i, c = none) ∧ f = .cursorWrap ∧ s.isFull = false ∧ s.wouldWrap = true ∧
      ∃ a frame, i = .rbPush a frame) := by
  obtain ⟨effect, he, hf⟩ := exec_eq_attempt i s
  rw [he] at h
  unfold attempt at h
  split at h
  · rename_i f' hf'
    simp [raise, State.reply] at h
    exact .inl (h ▸ hf')
  · rename_i hn
    exact .inr ⟨by simpa [List.findSome?_eq_none_iff] using hn, hf f h⟩

/-- The fault reported is one of the checks, and every check before it passes. -/
theorem first_check_cases {checks : List (Option Fault)} {f : Fault} (h : checks.findSome? id = some f) :
    ∃ before after, checks = before ++ some f :: after ∧ ∀ c ∈ before, c = none := by
  induction checks with
  | nil => simp at h
  | cons c cs ih =>
    cases c with
    | some g =>
      simp only [List.findSome?_cons, id] at h
      exact ⟨[], cs, by simp [h], by simp⟩
    | none =>
      obtain ⟨before, after, rfl, hb⟩ := ih (by simpa [List.findSome?_cons] using h)
      exact ⟨none :: before, after, rfl, by simpa using hb⟩

/-- A failing check with none before it is the fault the command ends with. -/
theorem exec_of_check {i : Instr} {s : State} {f : Fault} (h : (checksOf s i).findSome? id = some f) :
    exec i s = .next (s.reply i (.fault f)) := by
  obtain ⟨effect, he, -⟩ := exec_eq_attempt i s
  rw [he, attempt, h]
  rfl

end Sys2Proof.Machine
end

