-- ==== Sys2Proof/Laws/Memory.lean ====
section
/-! SUPPORT. The laws of the slot array: a read after a write, and that every operation keeps the canonical
form. -/

namespace Sys2Proof.Machine

variable {d f g : Frame} {m : Memory} {i j k : Nat}

theorem Memory.wf_nil : Memory.wf d [] := by simp [Memory.wf]

theorem Memory.wf_cons :
    Memory.wf d ((j, g) :: m) ↔ (∀ e ∈ m, j < e.1) ∧ g ≠ d ∧ Memory.wf d m := by
  simp only [Memory.wf, List.map_cons, List.pairwise_cons, List.mem_map, forall_exists_index, and_imp,
    forall_apply_eq_imp_iff₂, List.forall_mem_cons]
  tauto

@[simp] theorem Memory.read_nil : Memory.read d [] i = d := rfl

@[simp] theorem Memory.read_cons :
    Memory.read d ((j, f) :: m) i = if j = i then f else Memory.read d m i := rfl

/-- A slot below every listed one reads as the unlisted frame. -/
theorem Memory.read_below (h : ∀ e ∈ m, i < e.1) : m.read d i = d := by
  induction m with
  | nil => rfl
  | cons e m ih =>
    obtain ⟨j, g⟩ := e
    simp only [List.forall_mem_cons] at h
    simp [ih h.2, (Nat.ne_of_gt h.1)]

theorem Memory.erase_subset : ∀ e ∈ m.erase i, e ∈ m := by
  induction m with
  | nil => simp [Memory.erase]
  | cons e m ih =>
    obtain ⟨j, g⟩ := e
    simp only [Memory.erase]
    split
    · intro e he; exact List.mem_cons_of_mem _ he
    · intro e he
      rcases List.mem_cons.1 he with rfl | he
      · exact List.mem_cons_self
      · exact List.mem_cons_of_mem _ (ih e he)

theorem Memory.mem_insert {e : Nat × Frame} (h : e ∈ m.insert i f) : e = (i, f) ∨ e ∈ m := by
  induction m with
  | nil => simpa [Memory.insert] using h
  | cons c m ih =>
    obtain ⟨j, g⟩ := c
    simp only [Memory.insert] at h
    split at h
    · simpa using h
    · split at h
      · rcases List.mem_cons.1 h with rfl | h
        · exact .inl rfl
        · exact .inr (List.mem_cons_of_mem _ h)
      · rcases List.mem_cons.1 h with rfl | h
        · exact .inr List.mem_cons_self
        · exact (ih h).imp id (List.mem_cons_of_mem _)

/-- What a write leaves listed: the old entries and the one written. -/
theorem Memory.mem_write {e : Nat × Frame} (h : e ∈ m.write d i f) : e = (i, f) ∨ e ∈ m := by
  unfold Memory.write at h
  split at h
  · exact .inr (Memory.erase_subset e h)
  · exact Memory.mem_insert h

theorem Memory.wf_erase (h : m.wf d) : (m.erase i).wf d := by
  induction m with
  | nil => exact h
  | cons e m ih =>
    obtain ⟨j, g⟩ := e
    rw [Memory.wf_cons] at h
    simp only [Memory.erase]
    split
    · exact h.2.2
    · exact Memory.wf_cons.2 ⟨fun e he => h.1 e (Memory.erase_subset e he), h.2.1, ih h.2.2⟩

theorem Memory.wf_insert (h : m.wf d) (hf : f ≠ d) : (m.insert i f).wf d := by
  induction m with
  | nil => exact Memory.wf_cons.2 ⟨by simp, hf, h⟩
  | cons e m ih =>
    obtain ⟨j, g⟩ := e
    have hc := Memory.wf_cons.1 h
    simp only [Memory.insert]
    split
    · rename_i hij
      refine Memory.wf_cons.2 ⟨?_, hf, h⟩
      simp only [List.forall_mem_cons]
      exact ⟨hij, fun e he => hij.trans (hc.1 e he)⟩
    · split
      · rename_i _ hji
        exact Memory.wf_cons.2 ⟨fun e he => hji ▸ hc.1 e he, hf, hc.2.2⟩
      · refine Memory.wf_cons.2 ⟨fun e he => ?_, hc.2.1, ih hc.2.2⟩
        rcases Memory.mem_insert he with rfl | he
        · show j < i
          omega
        · exact hc.1 e he

/-- A write keeps the canonical form. -/
theorem Memory.wf_write (h : m.wf d) : (m.write d i f).wf d := by
  unfold Memory.write
  split
  · exact Memory.wf_erase h
  · exact Memory.wf_insert h ‹_›

theorem Memory.read_erase (h : m.wf d) : (m.erase i).read d k = if k = i then d else m.read d k := by
  induction m with
  | nil => simp [Memory.erase]
  | cons e m ih =>
    obtain ⟨j, g⟩ := e
    rw [Memory.wf_cons] at h
    simp only [Memory.erase]
    split
    · subst j
      by_cases hk : k = i
      · subst hk; simp [Memory.read_below h.1]
      · simp [hk, Ne.symm hk]
    · rw [Memory.read_cons, ih h.2.2, Memory.read_cons]
      split <;> split <;> simp_all

theorem Memory.read_insert : (m.insert i f).read d k = if k = i then f else m.read d k := by
  induction m with
  | nil => simp [Memory.insert, eq_comm]
  | cons e m ih =>
    obtain ⟨j, g⟩ := e
    simp only [Memory.insert]
    split
    · simp only [Memory.read_cons, eq_comm]
    · split
      · subst j
        by_cases hk : k = i
        · simp [hk]
        · simp [hk, Ne.symm hk]
      · rw [Memory.read_cons, ih, Memory.read_cons]
        split <;> split <;> simp_all

/-- A read after a write: the frame written at its slot, the old one at every other (R42). -/
theorem Memory.read_write (h : m.wf d) : (m.write d i f).read d k = if k = i then f else m.read d k := by
  unfold Memory.write
  split
  · rename_i hf
    rw [Memory.read_erase h, hf]
  · exact Memory.read_insert

end Sys2Proof.Machine
end

