-- ==== Sys2Proof/Laws/Slots.lean ====
section
/-! SUPPORT. What a push leaves in the slots, and that it keeps their canonical form and shapes. -/

namespace Sys2Proof.Machine

variable {s : State} {f : Frame} {k : Nat}

/-- A push writes its slot and no other (R174, R42). -/
theorem State.publish_slot (h : Memory.wf (blankFrame s.cfg) s.slots) :
    (s.publish f).slot k = if k = s.pushSlot then f else s.slot k :=
  Memory.read_write h

theorem State.publish_slots_wf (h : Memory.wf (blankFrame s.cfg) s.slots) :
    Memory.wf (blankFrame s.cfg) (s.publish f).slots :=
  Memory.wf_write h

/-- What a push leaves listed: the old slots and the one it writes. -/
theorem State.mem_publish_slots {e : Nat × Frame} (h : e ∈ (s.publish f).slots) :
    e = (s.pushSlot, f) ∨ e ∈ s.slots :=
  Memory.mem_write h

end Sys2Proof.Machine
end

