-- ==== Sys2Proof/Laws/History.lean ====
section
/-! SUPPORT. What one more completed command adds to the histories of Safety.lean. -/

namespace Sys2Proof.Machine

variable {s : State} {i : Instr} {r : Reply}

theorem State.sessionEvents_reply (h : Event.startsSession ⟨i, r⟩ = false) :
    (s.reply i r).sessionEvents = ⟨i, r⟩ :: s.sessionEvents := by
  simp [State.sessionEvents, h]

theorem State.sessionEvents_reply_reset (h : Event.startsSession ⟨i, r⟩ = true) :
    (s.reply i r).sessionEvents = [] := by
  simp [State.sessionEvents, h]

/-- The frames pushed gain the event's frame, if it has one. -/
theorem State.pushedFrames_reply (h : Event.startsSession ⟨i, r⟩ = false) :
    (s.reply i r).pushedFrames = s.pushedFrames ++ (Event.pushedFrame ⟨i, r⟩).toList := by
  rw [State.pushedFrames, State.sessionEvents_reply h, List.filterMap_cons]
  cases Event.pushedFrame ⟨i, r⟩ <;> simp [State.pushedFrames]

/-- The frames popped gain the event's frame, if it has one. -/
theorem State.poppedFrames_reply (h : Event.startsSession ⟨i, r⟩ = false) :
    (s.reply i r).poppedFrames = s.poppedFrames ++ (Event.poppedFrame ⟨i, r⟩).toList := by
  rw [State.poppedFrames, State.sessionEvents_reply h, List.filterMap_cons]
  cases Event.poppedFrame ⟨i, r⟩ <;> simp [State.poppedFrames]

/-- The values drawn gain the event's value, if it has one. -/
theorem State.drawnValues_reply (h : Event.reseeds ⟨i, r⟩ = false) :
    (s.reply i r).drawnValues = s.drawnValues ++ (Event.drawnValue ⟨i, r⟩).toList := by
  rw [State.drawnValues, State.reply_log, List.takeWhile_cons, h]
  simp only [Bool.not_false, if_true, List.filterMap_cons]
  cases Event.drawnValue ⟨i, r⟩ <;> simp [State.drawnValues]

theorem State.drawnValues_reply_seed (h : Event.reseeds ⟨i, r⟩ = true) :
    (s.reply i r).drawnValues = [] := by
  simp [State.drawnValues, h]

/-- The histories read the log, and nothing else of the state. -/
theorem State.pushedFrames_eq_of_log {t : State} (h : t.log = s.log) : t.pushedFrames = s.pushedFrames := by
  simp [State.pushedFrames, State.sessionEvents, h]

theorem State.poppedFrames_eq_of_log {t : State} (h : t.log = s.log) : t.poppedFrames = s.poppedFrames := by
  simp [State.poppedFrames, State.sessionEvents, h]

theorem State.drawnValues_eq_of_log {t : State} (h : t.log = s.log) : t.drawnValues = s.drawnValues := by
  simp [State.drawnValues, h]

/-- Two cursor positions less than `CAPACITY` apart select different slots. -/
theorem mod_ne_of_lt {p q capacity : Nat} (h : p < q) (hq : q < p + capacity) :
    p % capacity ≠ q % capacity := by
  intro he
  have h0 : (q - p) % capacity = 0 := Nat.sub_mod_eq_zero_of_mod_eq he.symm
  rw [Nat.mod_eq_of_lt (by omega)] at h0
  omega

end Sys2Proof.Machine
end

