-- ==== Sys2Proof/Laws/PerInstr.lean ====
section
/-! SUPPORT. The family OneFormat, one lemma per constructor of `Instr`: whoever puts a command's record on a
port, the decoder reads the same operation, issued by that agent (spec/30_encoding.md R74). -/

namespace Sys2Proof.Laws.OneFormat

/-- The operation code of the record alone selects the operation, and the port the agent. -/
def Statement (i : Instr) : Prop :=
  (encode i).op = i.opcode ∧
  ∀ a : Agent, ∃ j, decode a (encode i) = .ok j ∧ j.opcode = i.opcode ∧ j.operands = i.operands ∧ j.agent = a

theorem sessionReset (a : Agent) : Statement (.sessionReset a) :=
  ⟨rfl, fun b => ⟨.sessionReset b, rfl, rfl, rfl, rfl⟩⟩

theorem codecWrite (a : Agent) (address value : Nat) : Statement (.codecWrite a address value) :=
  ⟨rfl, fun b => ⟨.codecWrite b address value, rfl, rfl, rfl, rfl⟩⟩

theorem codecReadReq (a : Agent) (address : Nat) : Statement (.codecReadReq a address) :=
  ⟨rfl, fun b => ⟨.codecReadReq b address, rfl, rfl, rfl, rfl⟩⟩

theorem codecReadResp (a : Agent) (rx0 rx1 rx2 rx3 : Nat) :
    Statement (.codecReadResp a rx0 rx1 rx2 rx3) :=
  ⟨rfl, fun b => ⟨.codecReadResp b rx0 rx1 rx2 rx3, rfl, rfl, rfl, rfl⟩⟩

theorem codecBurstReq (a : Agent) (startAddress : Nat) : Statement (.codecBurstReq a startAddress) :=
  ⟨rfl, fun b => ⟨.codecBurstReq b startAddress, rfl, rfl, rfl, rfl⟩⟩

theorem unpack3 (a : Agent) (b0 b1 b2 : Nat) : Statement (.unpack3 a b0 b1 b2) :=
  ⟨rfl, fun b => ⟨.unpack3 b b0 b1 b2, rfl, rfl, rfl, rfl⟩⟩

theorem unpackRun (a : Agent) (bytes : List Nat) : Statement (.unpackRun a bytes) :=
  ⟨rfl, fun b => ⟨.unpackRun b bytes, rfl, rfl, rfl, rfl⟩⟩

theorem unpackSlice (a : Agent) (slice : List Nat) : Statement (.unpackSlice a slice) :=
  ⟨rfl, fun b => ⟨.unpackSlice b slice, rfl, rfl, rfl, rfl⟩⟩

theorem lfsrReseed (a : Agent) : Statement (.lfsrReseed a) :=
  ⟨rfl, fun b => ⟨.lfsrReseed b, rfl, rfl, rfl, rfl⟩⟩

theorem lfsrNext (a : Agent) : Statement (.lfsrNext a) :=
  ⟨rfl, fun b => ⟨.lfsrNext b, rfl, rfl, rfl, rfl⟩⟩

theorem rbPush (a : Agent) (frame : List Nat) : Statement (.rbPush a frame) :=
  ⟨rfl, fun b => ⟨.rbPush b frame, rfl, rfl, rfl, rfl⟩⟩

theorem rbPop (a : Agent) : Statement (.rbPop a) :=
  ⟨rfl, fun b => ⟨.rbPop b, rfl, rfl, rfl, rfl⟩⟩

theorem rbFill (a : Agent) : Statement (.rbFill a) :=
  ⟨rfl, fun b => ⟨.rbFill b, rfl, rfl, rfl, rfl⟩⟩

theorem rbWait (a : Agent) (n : Nat) : Statement (.rbWait a n) :=
  ⟨rfl, fun b => ⟨.rbWait b n, rfl, rfl, rfl, rfl⟩⟩

theorem rbStatus (a : Agent) : Statement (.rbStatus a) :=
  ⟨rfl, fun b => ⟨.rbStatus b, rfl, rfl, rfl, rfl⟩⟩

theorem reserved0xF (a : Agent) (operands : List Operand) : Statement (.reserved0xF a operands) :=
  ⟨rfl, fun b => ⟨.reserved0xF b operands, rfl, rfl, rfl, rfl⟩⟩

end Sys2Proof.Laws.OneFormat
end

