-- ==== Sys2Proof/Machine/Assembly.lean ====
section
/-! DEFINITION. The written form of commands and results, spec/30_encoding.md R81:
`<agent>: <MNEMONIC> <operands> => <results>`. Numbers are written in hexadecimal. Nothing of the machine
depends on it. -/

namespace Sys2Proof.Machine

/-- A hexadecimal digit. -/
def hexDigit (n : Nat) : Char := if n < 10 then Char.ofNat (48 + n) else Char.ofNat (55 + n)

/-- The hexadecimal digits of a number, with fuel for as many. -/
def hexDigits : Nat → Nat → List Char
  | 0, _ => []
  | k + 1, n => if n < 16 then [hexDigit n] else hexDigits k (n / 16) ++ [hexDigit (n % 16)]

/-- A number, `0x..`. -/
def asmNumber (n : Nat) : List Char := ['0', 'x'] ++ hexDigits (n + 1) n

/-- A byte of a byte sequence: hexadecimal without a prefix. A number above a byte is written whole. -/
def asmByte (n : Nat) : List Char :=
  if n < 256 then [hexDigit (n / 16), hexDigit (n % 16)] else hexDigits (n + 1) n

/-- The parts with a separator between them. -/
def asmJoin (sep : List Char) : List (List Char) → List Char
  | [] => []
  | [x] => x
  | x :: xs => x ++ sep ++ asmJoin sep xs

/-- A byte sequence, in square brackets. -/
def asmBytes (bytes : List Nat) : List Char := ['['] ++ asmJoin [' '] (bytes.map asmByte) ++ [']']

/-- A list of numbers, in square brackets. -/
def asmNumbers (l : List Nat) : List Char := ['['] ++ asmJoin [',', ' '] (l.map asmNumber) ++ [']']

/-- A frame: its values in braces after the word. -/
def asmFrame (l : List Nat) : List Char :=
  "frame".toList ++ [Char.ofNat 0x7B] ++ asmJoin [',', ' '] (l.map asmNumber) ++ [Char.ofNat 0x7D]

/-- The letter of an agent (R9). -/
def asmAgent : Agent → Char
  | .producer => 'P'
  | .consumer => 'C'
  | .host => 'H'

/-- The mnemonic of an operation code (R75). -/
def mnemonic (op : OpCode) : String :=
  match op.toNat with
  | 0x0 => "SESSION_RESET"
  | 0x1 => "CODEC_WRITE"
  | 0x2 => "CODEC_READ_REQ"
  | 0x3 => "CODEC_READ_RESP"
  | 0x4 => "CODEC_BURST_REQ"
  | 0x5 => "UNPACK3"
  | 0x6 => "UNPACK_RUN"
  | 0x7 => "UNPACK_SLICE"
  | 0x8 => "LFSR_RESEED"
  | 0x9 => "LFSR_NEXT"
  | 0xA => "RB_PUSH"
  | 0xB => "RB_POP"
  | 0xC => "RB_FILL"
  | 0xD => "RB_WAIT"
  | 0xE => "RB_STATUS"
  | _ => "<OP 0xF>"

/-- The operands of a command, each in the form of its type. -/
def asmOperands (op : OpCode) (operands : List Operand) : List (List Char) :=
  operands.map fun
    | .num v => asmNumber v
    | .seq vs => if op = 0xA#4 then asmFrame vs else asmBytes vs

/-- A command as R81 writes it. -/
def asmCommand (i : Instr) : List Char :=
  [asmAgent i.agent, ':', ' '] ++ (mnemonic i.opcode).toList ++
    match asmOperands i.opcode i.operands with
    | [] => []
    | l => [' '] ++ asmJoin [',', ' '] l

/-- The results of a command as R81 and the tables of R75 name them; a fault by its outcome code. -/
def asmReply : Reply → List Char
  | .fault f => "fault ".toList ++ asmNumber f.code
  | .ok .none => "OK".toList
  | .ok (.tx bytes) => "tx=".toList ++ asmBytes (bytes.map BitVec.toNat)
  | .ok (.value v) => "value=".toList ++ asmNumber v.toNat
  | .ok (.pair A B) => "A=".toList ++ asmNumber A.toNat ++ ", B=".toList ++ asmNumber B.toNat
  | .ok (.samples l) => "samples=".toList ++ asmNumbers (l.map BitVec.toNat)
  | .ok (.pattern v) => "value=".toList ++ asmNumber v.toNat
  | .ok (.pushed ok) => "ok=".toList ++ [if ok then '1' else '0']
  | .ok (.popped none) => "ok=0".toList
  | .ok (.popped (some f)) => "ok=1, frame=".toList ++ asmFrame (f.map BitVec.toNat)
  | .ok (.fill n) => "fill=".toList ++ asmNumber n
  | .ok (.status r) =>
    "overflow=".toList ++ [if r.overflow then '1' else '0'] ++ ", fill=".toList ++ asmNumber r.fill ++
      ", capacity=".toList ++ asmNumber r.capacity

/-- A completed command with its results. -/
def asmEvent (e : Event) : String :=
  String.ofList (asmCommand e.instr ++ [' ', '=', '>', ' '] ++ asmReply e.reply)

end Sys2Proof.Machine
end

