-- ==== Sys2Proof/Tests/Slice0.lean ====
section
/-! SUPPORT. Small tests: expected results come from spec/95_test_vectors.md and the corner cases of the rules,
or are worked out by hand from the rule a comment names. Below them, a witness for the hypotheses of every
statement that has some. -/

namespace Sys2Proof.Tests

open Sys2Proof.Machine

/-- The reply of the newest completed command of an outcome. -/
def replied : Host.Outcome State Fault Refusal → Option Reply
  | .next t => t.log.head?.map Event.reply
  | _ => none

/-- The next state of an outcome. -/
def after : Host.Outcome State Fault Refusal → Option State
  | .next t => some t
  | _ => none

/-- The refusal of an outcome. -/
def refusal : Host.Outcome State Fault Refusal → Option Refusal
  | .refused r => some r
  | _ => none

/-- The instruction a decoding gives. -/
def decoded : Except DecodeError Instr → Option Instr
  | .ok i => some i
  | .error _ => none

/-! ## WellFormed: an ill-formed term for each check (R16) -/

theorem test_wf_write_legal : (Instr.codecWrite .host 0x7F 0xFFFFFF).wellFormed = true := by decide
theorem test_wf_write_address : (Instr.codecWrite .host 0x80 0).wellFormed = false := by decide
theorem test_wf_write_value : (Instr.codecWrite .host 0 0x1000000).wellFormed = false := by decide
theorem test_wf_read_address : (Instr.codecReadReq .host 0x80).wellFormed = false := by decide
theorem test_wf_response_byte : (Instr.codecReadResp .host 0 0 0 0x100).wellFormed = false := by decide
theorem test_wf_burst_address : (Instr.codecBurstReq .host 0x80).wellFormed = false := by decide
theorem test_wf_triplet_byte : (Instr.unpack3 .host 0 0x100 0).wellFormed = false := by decide
theorem test_wf_run_byte : (Instr.unpackRun .host [0, 0, 0x100]).wellFormed = false := by decide
theorem test_wf_slice_byte : (Instr.unpackSlice .host [0x100, 0, 0, 0]).wellFormed = false := by decide
theorem test_wf_frame_sample : (Instr.rbPush .producer [0x10000, 0]).wellFormed = false := by decide

/-! ## Decoding: each code's record, written out from R75 -/

theorem test_decode_session_reset :
    decoded (decode .host ⟨0b0000#4, []⟩) = some (.sessionReset .host) := by decide
theorem test_decode_codec_write :
    decoded (decode .producer ⟨0b0001#4, [.num 1, .num 0x123456]⟩) =
      some (.codecWrite .producer 1 0x123456) := by decide
theorem test_decode_codec_read_req :
    decoded (decode .host ⟨0b0010#4, [.num 2]⟩) = some (.codecReadReq .host 2) := by decide
theorem test_decode_codec_read_resp :
    decoded (decode .host ⟨0b0011#4, [.seq [0x8F, 0x12, 0x34, 0x56]]⟩) =
      some (.codecReadResp .host 0x8F 0x12 0x34 0x56) := by decide
theorem test_decode_codec_burst_req :
    decoded (decode .producer ⟨0b0100#4, [.num 0x60]⟩) = some (.codecBurstReq .producer 0x60) := by decide
theorem test_decode_unpack3 :
    decoded (decode .consumer ⟨0b0101#4, [.num 1, .num 2, .num 3]⟩) =
      some (.unpack3 .consumer 1 2 3) := by decide
theorem test_decode_unpack_run :
    decoded (decode .host ⟨0b0110#4, [.seq [1, 2, 3]]⟩) = some (.unpackRun .host [1, 2, 3]) := by decide
theorem test_decode_unpack_slice :
    decoded (decode .host ⟨0b0111#4, [.seq [0, 0, 0, 0]]⟩) =
      some (.unpackSlice .host [0, 0, 0, 0]) := by decide
theorem test_decode_lfsr_reseed :
    decoded (decode .consumer ⟨0b1000#4, []⟩) = some (.lfsrReseed .consumer) := by decide
theorem test_decode_lfsr_next :
    decoded (decode .consumer ⟨0b1001#4, []⟩) = some (.lfsrNext .consumer) := by decide
theorem test_decode_rb_push :
    decoded (decode .producer ⟨0b1010#4, [.seq [0x123, 0x456]]⟩) =
      some (.rbPush .producer [0x123, 0x456]) := by decide
theorem test_decode_rb_pop :
    decoded (decode .consumer ⟨0b1011#4, []⟩) = some (.rbPop .consumer) := by decide
theorem test_decode_rb_fill :
    decoded (decode .host ⟨0b1100#4, []⟩) = some (.rbFill .host) := by decide
theorem test_decode_rb_wait :
    decoded (decode .consumer ⟨0b1101#4, [.num 1]⟩) = some (.rbWait .consumer 1) := by decide
theorem test_decode_rb_status :
    decoded (decode .host ⟨0b1110#4, []⟩) = some (.rbStatus .host) := by decide
theorem test_decode_reserved :
    decoded (decode .producer ⟨0b1111#4, []⟩) = some (.reserved0xF .producer []) := by decide
theorem test_decode_missing_operand : decoded (decode .host ⟨0b0001#4, [.num 1]⟩) = none := by decide
theorem test_decode_wrong_type : decoded (decode .producer ⟨0b1010#4, [.num 1]⟩) = none := by decide

/-- Every code of the table has an instruction, and the step runs it first thing after reset. -/
theorem test_table_words :
    (List.range 16).all (fun w =>
      (decodeTableWord 8 w).map Instr.opcode == some (BitVec.ofNat 4 w) &&
      ((after (step (State.reset.withFetchWord 8 w))).bind fun t => t.log.head?.map Event.instr) ==
        decodeTableWord 8 w) = true := by decide

/-! ## Configuration (R12) -/

theorem test_config_default : Config.default.WF := by decide
theorem test_config_zero_seed : ¬ Config.WF { Config.default with lfsrSeed := 0 } := by decide
theorem test_config_wide_seed : ¬ Config.WF { Config.default with lfsrSeed := 0x1000 } := by decide
theorem test_config_overlap : ¬ Config.WF { Config.default with layout := ⟨25, 25, 0⟩ } := by decide
theorem test_config_no_capacity : ¬ Config.WF { Config.default with capacity := 0 } := by decide
theorem test_config_capacity_too_wide :
    ¬ Config.WF { Config.default with capacity := 8, cursorW := 3 } := by decide
theorem test_ill_formed_refused :
    refusal (step { State.reset with cfg := { Config.default with frameLen := 0 } }) =
      some .illFormedConfig := by decide

/-! ## Codec: spec/95_test_vectors.md 2.1 -/

theorem test_write_word :
    replied (exec (.codecWrite .host 0x7E 0xABCDEF) State.reset) =
      some (.ok (.tx [0xFD#8, 0xAB#8, 0xCD#8, 0xEF#8])) := by decide
theorem test_write_address_too_wide :
    (replied (exec (.codecWrite .host 0x80 0) State.reset)).map Reply.code = some 3 := by decide
theorem test_read_request_word :
    replied (exec (.codecReadReq .consumer 0x7F) State.reset) =
      some (.ok (.tx [0xFE#8, 0x00#8, 0x00#8, 0x00#8])) := by decide
theorem test_response_ignores_byte_0 :
    replied (exec (.codecReadResp .host 0x8F 0x12 0x34 0x56) State.reset) =
      some (.ok (.value 0x123456#24)) := by decide
theorem test_burst_word :
    replied (exec (.codecBurstReq .producer 0x60) State.reset) =
      some (.ok (.tx [0xFF#8, 0xC0#8, 0x00#8, 0x00#8])) := by decide
/-- P4 step 3: the transfer is 10 bytes, the last six of them 00. -/
theorem test_burst_transfer :
    burstTransfer Config.default 0x60#7 =
      [0xFF#8, 0xC0#8, 0x00#8, 0x00#8, 0x00#8, 0x00#8, 0x00#8, 0x00#8, 0x00#8, 0x00#8] := by decide
/-- R233: the pure commands work from power-on. -/
theorem test_write_at_power_on :
    replied (exec (.codecWrite .host 0x01 0x123456) (State.powerOn State.reset)) =
      some (.ok (.tx [0x03#8, 0x12#8, 0x34#8, 0x56#8])) := by decide

/-! ## Unpacker: 2.2 -/

theorem test_unpack3_nibbles :
    replied (exec (.unpack3 .host 0xAB 0xCD 0xEF) State.reset) =
      some (.ok (.pair 0x0ABC#16 0x0DEF#16)) := by decide
theorem test_unpack3_low_nibble :
    replied (exec (.unpack3 .host 0x00 0x0F 0x00) State.reset) =
      some (.ok (.pair 0x0000#16 0x0F00#16)) := by decide
theorem test_unpack_run :
    replied (exec (.unpackRun .host [0x12, 0x34, 0x56, 0xAB, 0xCD, 0xEF]) State.reset) =
      some (.ok (.samples [0x123#16, 0x456#16, 0xABC#16, 0xDEF#16])) := by decide
theorem test_unpack_run_remainder :
    replied (exec (.unpackRun .host [0x12, 0x34, 0x56, 0xAB]) State.reset) =
      some (.fault (.length 4)) := by decide
theorem test_unpack_slice :
    replied (exec (.unpackSlice .host [0xFF, 0xFF, 0xFF, 0xFF, 0x80, 0x08, 0x01]) State.reset) =
      some (.ok (.samples [0x800#16, 0x801#16])) := by decide
theorem test_unpack_slice_short :
    replied (exec (.unpackSlice .host [0, 0, 0]) State.reset) = some (.fault (.length 3)) := by decide
theorem test_pack3 : pack3 0x001#12 0x800#12 = (0x00#8, 0x18#8, 0x00#8) := by decide

/-! ## LFSR: 2.3 -/

theorem test_lfsr_first_value :
    replied (exec (.lfsrNext .consumer) State.reset) = some (.ok (.pattern 0x0001#16)) := by decide
theorem test_lfsr_first_update :
    (after (exec (.lfsrNext .consumer) State.reset)).map State.lfsr = some 0x0800#16 := by decide
theorem test_lfsr_step_0xABC : lfsrStep 12 0xABC#16 = 0x55E#16 := by decide
theorem test_lfsr_step_at_16 : lfsrStep 16 0x0400#16 = 0x8200#16 := by decide
theorem test_lfsr_reseed :
    (after (exec (.lfsrReseed .consumer) { State.reset with lfsr := 0x9D0#16 })).map State.lfsr =
      some 0x0001#16 := by decide
theorem test_lfsr_next_by_host :
    replied (exec (.lfsrNext .host) State.reset) = some (.fault (.wrongAgent 0x9#4 .host)) := by decide

/-! ## Ring Buffer: 2.4 -/

/-- Two of five frames popped, as in the rows that start from rd = 2, wr = 5. -/
def midway : State :=
  { State.reset with
    rd := 2
    wr := 5
    slots := [(0, [0x100#16, 0x200#16]), (1, [0x101#16, 0x201#16]), (2, [0x102#16, 0x202#16]),
      (3, [0x103#16, 0x203#16]), (4, [0x104#16, 0x204#16])]
    overflow := true }

/-- A full buffer. -/
def full : State := { midway with rd := 0, overflow := false }

theorem test_push_from_reset :
    (after (exec (.rbPush .producer [0x100, 0x200]) State.reset)).map
      (fun t => (t.rd, t.wr, t.slot 0, t.overflow)) =
      some (0, 1, [0x100#16, 0x200#16], false) := by decide
theorem test_push_when_full :
    (after (exec (.rbPush .producer [0x105, 0x205]) full)).map
      (fun t => (t.rd, t.wr, t.slots == full.slots, t.overflow)) = some (0, 5, true, true) := by decide
/-- R171: with wr = 5 the slot is 5 mod 5 = 0. -/
theorem test_push_wraps_to_slot_0 :
    (after (exec (.rbPush .producer [0x106, 0x206]) { full with rd := 1 })).map
      (fun t => (t.wr, t.slot 0)) = some (6, [0x106#16, 0x206#16]) := by decide
theorem test_push_cursor_wrap :
    replied (exec (.rbPush .producer [5])
      { State.reset with
        cfg := { Config.default with capacity := 3, cursorW := 3, frameLen := 1 }, rd := 6, wr := 7 }) =
      some (.fault .cursorWrap) := by decide
theorem test_push_at_dividing_capacity :
    (after (exec (.rbPush .producer [5])
      { State.reset with
        cfg := { Config.default with capacity := 4, cursorW := 3, frameLen := 1 }, rd := 6, wr := 7 })).map
      (fun t => (t.wr, t.slot 3)) = some (8, [5#16]) := by decide
theorem test_pop_oldest :
    (after (exec (.rbPop .consumer) midway)).map (fun t => (t.rd, t.wr, t.log.head?.map Event.reply)) =
      some (3, 5, some (.ok (.popped (some [0x102#16, 0x202#16])))) := by decide
theorem test_pop_empty :
    replied (exec (.rbPop .consumer) State.reset) = some (.ok (.popped none)) := by decide
theorem test_status :
    replied (exec (.rbStatus .host) midway) = some (.ok (.status ⟨true, 3, 5⟩)) := by decide
theorem test_fill : replied (exec (.rbFill .producer) midway) = some (.ok (.fill 3)) := by decide
theorem test_wait_holds :
    (after (exec (.rbWait .consumer 1) State.reset)).map (fun t => (t.wait, t.log)) =
      some (some 1, []) := by decide
theorem test_wait_completes :
    (after (exec (.rbWait .consumer 3) midway)).map (fun t => (t.wait, t.log.head?.map Event.reply)) =
      some (none, some (.ok .none)) := by decide

/-! ## Reset and faults: 2.5 -/

theorem test_session_reset :
    (after (exec (.sessionReset .host) { midway with lfsr := 0x9D0#16, init := false })).map
      (fun t => (t.rd, t.wr, t.overflow, t.lfsr, t.init)) = some (0, 0, false, 0x0001#16, true) := by decide
theorem test_session_reset_busy :
    replied (exec (.sessionReset .host) { State.reset with wait := some 1 }) =
      some (.fault .resetBusy) := by decide
theorem test_reserved :
    (replied (exec (.reserved0xF .producer []) State.reset)).map Reply.code = some 1 := by decide
/-- R211: the agent is checked before the reset. -/
theorem test_check_order :
    replied (exec (.rbPop .producer) (State.powerOn State.reset)) =
      some (.fault (.wrongAgent 0xB#4 .producer)) := by decide

/-! ## Steps -/

/-- P4 steps 6 to 8 in small: the consumer is held, the producer pushes, the consumer's turn completes. -/
def waiting : State :=
  { State.reset with
    wait := some 1
    ports := ⟨[encode (.rbPush .producer [7, 8])], [encode (.rbPop .consumer)], []⟩
    turns := [.producer, .consumer] }

theorem test_held_consumer_issues_nothing :
    (after (step { waiting with turns := [.consumer] })).map (fun t => (t.wait, t.ports == waiting.ports)) =
      some (some 1, true) := by decide
theorem test_push_then_wait_completes :
    ((after (step waiting)).bind fun t => after (step t)).map
      (fun t => (t.wait, t.rd, t.wr, t.ports.consumer.length)) = some (none, 0, 1, 1) := by decide
theorem test_malformed_refused :
    refusal (step { State.reset with ports := ⟨[⟨0x1#4, []⟩], [], []⟩, turns := [.producer] }) =
      some (.malformedCommand (.operandTypes 0x1#4)) := by decide
theorem test_idle : after (step State.reset) = some State.reset := by decide

/-! ## Assembly: R81 -/

theorem test_assembly_command :
    asmCommand (.rbPush .producer [0x123, 0x456]) =
      "P: RB_PUSH frame".toList ++ [Char.ofNat 0x7B] ++ "0x123, 0x456".toList ++ [Char.ofNat 0x7D] := by
  decide
theorem test_assembly_reply :
    asmReply (.ok (.tx [0x03#8, 0x12#8, 0x34#8, 0x56#8])) = "tx=[03 12 34 56]".toList := by decide

/-! ## Witnesses: concrete states and operands that meet a statement's hypotheses -/

/-- `midway` is a state between steps. -/
theorem midway_inv : midway.Inv where
  cfg := by decide
  shaped := ⟨by decide, by decide, by decide, by decide⟩
  session := fun _ => ⟨by decide, by decide, by decide, by decide⟩
  wait := by decide

/-- `waiting` is a state between steps. -/
theorem waiting_inv : waiting.Inv where
  cfg := by decide
  shaped := ⟨by decide, by decide, by decide, by decide⟩
  session := fun _ => ⟨by decide, by decide, by decide, by decide⟩
  wait := by decide

/-- CodecWriteSendsItsWord, CodecReadRequestSendsItsWord, CodecReadResponseTakesItsData,
CodecBurstRequestSendsItsWord: the constants, each range at its last legal and first illegal value. -/
theorem witness_codec :
    State.reset.cfg.layout = Layout.spec ∧ State.reset.cfg.burstCmd = 0xFF#8 ∧
    State.reset.cfg.sadrPos = 17 ∧ 0x7F < 2 ^ 7 ∧ ¬ 0x80 < 2 ^ 7 ∧ 0xFFFFFF < 2 ^ 24 ∧
    ¬ 0x1000000 < 2 ^ 24 ∧ (∀ v ∈ [0xFF, 0xFF, 0xFF, 0xFF], v < 2 ^ 8) ∧
    ¬ (∀ v ∈ [0, 0, 0, 0x100], v < 2 ^ 8) := by decide

/-- CodecWriteLaws, third clause: bytes of a write word. -/
theorem witness_codec_write_laws :
    State.reset.cfg.layout = Layout.spec ∧
    be4 (writeWord Layout.spec 0x7F#7 0xC00000#24) = [0xFF#8, 0xC0#8, 0x00#8, 0x00#8] := by decide

/-- FieldsReadBackUnderAnyLayout: this spec's layout and one with the fields reversed. -/
theorem witness_layouts : Layout.spec.WF ∧ Layout.WF ⟨0, 7, 8⟩ := by decide

/-- CodecReadRequestLaws, CodecReadResponseLaws, CodecBurstRequestLaws: the burst constants. -/
theorem witness_burst_constants : Config.default.burstCmd = 0xFF#8 ∧ Config.default.sadrPos = 17 := by decide

/-- CodecWriteLaws, CodecReadRequestLaws, CodecBurstRequestLaws: equal bytes, for the injectivity clauses. -/
theorem witness_injectivity :
    be4 (writeWord Layout.spec 1#7 2#24) = be4 (writeWord Layout.spec 1#7 2#24) ∧
    be4 (readRequestWord Layout.spec 1#7) = be4 (readRequestWord Layout.spec 1#7) ∧
    be4 (burstWord Config.default 1#7) = be4 (burstWord Config.default 1#7) := by decide

/-- UnpackTripletGivesItsSamples: the largest byte and the first number above it. -/
theorem witness_unpack3 :
    (0xFF < 2 ^ 8 ∧ 0 < 2 ^ 8) ∧ ¬ (0xFF < 2 ^ 8 ∧ 0x100 < 2 ^ 8 ∧ 0 < 2 ^ 8) := by decide

/-- UnpackTripletIsABijection, second clause: the bytes `PACK3` gives. -/
theorem witness_pack3 : pack3 0xABC#12 0xDEF#12 = (0xAB#8, 0xCD#8, 0xEF#8) := by decide

/-- UnpackRunUnpacksInOrder: a legal run with a triplet in it, an illegal length, a number above a byte. -/
theorem witness_unpack_run :
    ((∀ b ∈ [0x12, 0x34, 0xFF], b < 2 ^ 8) ∧ [0x12, 0x34, 0xFF].length % 3 = 0 ∧
      [0x12, 0x34, 0xFF][3 * 0]? = some 0x12 ∧ [0x12, 0x34, 0xFF][3 * 0 + 1]? = some 0x34 ∧
      [0x12, 0x34, 0xFF][3 * 0 + 2]? = some 0xFF) ∧
    ((∀ b ∈ [0x12, 0xFF], b < 2 ^ 8) ∧ [0x12, 0xFF].length % 3 ≠ 0) ∧
    ¬ (∀ b ∈ [0, 0, 0x100], b < 2 ^ 8) := by decide

/-- UnpackRunLaws: two runs of triplets. -/
theorem witness_unpack_run_laws :
    [0x12#8, 0x34#8, 0x56#8].length % 3 = 0 ∧ [0xAB#8, 0xCD#8, 0xEF#8].length % 3 = 0 := by decide

/-- UnpackSliceSkipsTheHeader: the shortest slice, one too short, one with a remainder, a wide number. -/
theorem witness_unpack_slice :
    ((∀ b ∈ [0, 0, 0, 0xFF], b < 2 ^ 8) ∧ 4 ≤ [0, 0, 0, 0xFF].length ∧
      ([0, 0, 0, 0xFF].length - 4) % 3 = 0) ∧
    ((∀ b ∈ [0, 0, 0xFF], b < 2 ^ 8) ∧ [0, 0, 0xFF].length < 4) ∧
    ((∀ b ∈ [0, 0, 0, 0, 0xFF], b < 2 ^ 8) ∧ ([0, 0, 0, 0, 0xFF].length - 4) % 3 ≠ 0) ∧
    ¬ (∀ b ∈ [0, 0, 0, 0x100], b < 2 ^ 8) := by decide

/-- LfsrReseedLoadsTheSeed: a legal agent after and before the reset, and the producer. -/
theorem witness_lfsr_reseed :
    Agent.consumer ≠ .producer ∧ Agent.host ≠ .producer ∧ State.reset.init = true ∧
    (State.powerOn State.reset).init = false := by decide

/-- LfsrNextReturnsThenShifts: a state between steps, a power-on state, another agent. -/
theorem witness_lfsr_next :
    midway.Inv ∧ midway.init = true ∧ (0 < midway.cfg.lfsrW - 1 ∧ 10 < midway.cfg.lfsrW - 1) ∧
    (State.powerOn midway).init = false ∧ Agent.host ≠ .consumer :=
  ⟨midway_inv, by decide⟩

/-- LfsrUpdateShiftsAndTaps, LfsrUpdateIsABijection: both widths, with the largest value of each, and equal
images. -/
theorem witness_lfsr_widths :
    (12 = 12 ∨ 12 = 16) ∧ (16 = 12 ∨ 16 = 16) ∧ (0x0FFF#16).toNat < 2 ^ 12 ∧
    (0xFFFF#16).toNat < 2 ^ 16 ∧ lfsrStep 12 0xFFF#16 = lfsrStep 12 0xFFF#16 := by decide

/-- LfsrBitsFollowTheRecurrence, LfsrHasFullPeriodAtTwelve, LfsrCyclesHave255StatesAtSixteen: seeds, places
and a value to be reached. -/
theorem witness_lfsr_seeds :
    (0xFFF#16 ≠ 0#16 ∧ (0xFFF#16).toNat < 2 ^ 12) ∧ (0 < 4094 ∧ 4094 < 4095) ∧
    (0x001#16 ≠ 0#16 ∧ (0x001#16).toNat < 2 ^ 12) ∧ (0xFFFF#16 ≠ 0#16) ∧ (0 < 254 ∧ 254 < 255) := by decide

/-- RbPushStoresOrReports: the fault clauses, in the order of the checks. -/
theorem witness_rb_push_faults :
    Agent.host ≠ .producer ∧ (State.powerOn State.reset).init = false ∧ midway.init = true ∧
    ¬ (∀ v ∈ [0x10000, 0], v < 2 ^ 16) ∧
    ((∀ v ∈ [0xFFFF], v < 2 ^ 16) ∧ [0xFFFF].length ≠ midway.cfg.frameLen) := by decide

/-- RbPushStoresOrReports: success, full and the cursor's wrap; a slot other than the one written. -/
theorem witness_rb_push_effects :
    ((∀ v ∈ [0xFFFF, 0], v < 2 ^ 16) ∧ [0xFFFF, 0].length = midway.cfg.frameLen ∧ midway.init = true) ∧
    full.wr - full.rd = full.cfg.capacity ∧ midway.wr - midway.rd ≠ midway.cfg.capacity ∧
    ¬ (2 ^ midway.cfg.cursorW % midway.cfg.capacity ≠ 0 ∧ midway.wr + 1 = 2 ^ midway.cfg.cursorW) ∧
    Memory.wf (blankFrame midway.cfg) midway.slots ∧ 4 ≠ midway.wr % midway.cfg.capacity ∧
    (2 ^ 3 % 3 ≠ 0 ∧ 7 + 1 = 2 ^ 3 ∧ 7 - 6 ≠ 3) := by decide

/-- OverflowFlagIsSticky: a push that sets the flag and a reset that clears it. -/
theorem witness_overflow :
    (full.overflow = false ∧
      (after (exec (.rbPush .producer [1, 2]) full)).map State.overflow = some true) ∧
    (midway.overflow = true ∧
      (after (exec (.sessionReset .host) midway)).map State.overflow = some false) := by decide

/-- RbPopReturnsTheOldestFrame: every clause. -/
theorem witness_rb_pop :
    Agent.producer ≠ .consumer ∧ (State.powerOn State.reset).init = false ∧
    (State.reset.init = true ∧ State.reset.wr - State.reset.rd = 0) ∧
    (midway.init = true ∧ midway.wr - midway.rd ≠ 0) := by decide

/-- StatusAndFillReadTheView: after and before the reset. -/
theorem witness_status :
    midway.init = true ∧ midway.Inv ∧ (State.powerOn midway).init = false :=
  ⟨by decide, midway_inv, by decide⟩

/-- RbWaitCompletesOrHolds: every clause, at the fill and one above it. -/
theorem witness_rb_wait :
    Agent.host ≠ .consumer ∧ (State.powerOn State.reset).init = false ∧ midway.init = true ∧
    3 ≤ midway.wr - midway.rd ∧ midway.wr - midway.rd < 4 ∧
    (waiting.cfg.WF ∧ waiting.wait = some 1 ∧
      { waiting with turns := [Agent.consumer] }.turns = .consumer :: [] ∧
      waiting.wr - waiting.rd < 1 ∧ 1 ≤ { waiting with wr := 1 }.wr - waiting.rd) := by decide

/-- WaitAboveCapacityNeverCompletes: one above the capacity, and a run. -/
theorem witness_wait_above_capacity :
    midway.Inv ∧ midway.init = true ∧ midway.cfg.capacity < 6 ∧
    Host.Core.run Sys2Proof.core 1 { midway with wait := some 6 } = .next { midway with wait := some 6 } :=
  ⟨midway_inv, by decide, by decide, rfl⟩

/-- PushesLiftAHeldWait: the state `waiting`, whose producer has the one push that is missing. -/
theorem witness_pushes_lift :
    waiting.Inv ∧ waiting.init = true ∧ waiting.wait = some 1 ∧ 1 ≤ waiting.cfg.capacity ∧
    [[7, 8]].length = 1 - (waiting.wr - waiting.rd) ∧
    (∀ f ∈ [[7, 8]], f.length = waiting.cfg.frameLen ∧ ∀ v ∈ f, v < 2 ^ 16) ∧
    (2 ^ waiting.cfg.cursorW % waiting.cfg.capacity = 0 ∨
      waiting.wr + [[7, 8]].length < 2 ^ waiting.cfg.cursorW) ∧
    waiting.ports.producer = [[7, 8]].map (fun f => encode (.rbPush .producer f)) ++ [] ∧
    waiting.turns = List.replicate [[7, 8]].length .producer ++ .consumer :: [] :=
  ⟨waiting_inv, by decide⟩

/-- FiniteCursorsAgree: a state between steps with unread frames. -/
theorem witness_cursors : midway.Inv ∧ midway.init = true := ⟨midway_inv, by decide⟩

/-- Two frames pushed and one popped since the reset. -/
def queued : State :=
  { State.reset with
    rd := 1
    wr := 2
    slots := [(0, [7#16, 8#16]), (1, [9#16, 10#16])]
    log := [⟨.rbPop .consumer, .ok (.popped (some [7#16, 8#16]))⟩,
      ⟨.rbPush .producer [9, 10], .ok (.pushed true)⟩, ⟨.rbPush .producer [7, 8], .ok (.pushed true)⟩] }

/-- `queued` is a state between steps. -/
theorem queued_inv : queued.Inv where
  cfg := by decide
  shaped := ⟨by decide, by decide, by decide, by decide⟩
  session := fun _ => ⟨by decide, by decide, by decide, by decide⟩
  wait := by decide

/-- The completed commands account for the queue of `queued`. -/
theorem queued_history : queued.QueueHistory where
  pushes := rfl
  pops := rfl
  order := rfl
  unread k h₁ h₂ := by
    obtain rfl : k = 1 := Nat.le_antisymm (Nat.le_of_lt_succ h₂) h₁
    rfl
  overflow := by decide

/-- PushSlotHoldsNoUnreadFrame: a queue with an unread frame that is not full, and a legal frame. -/
theorem witness_push_slot :
    queued.Inv ∧ queued.QueueHistory ∧ queued.init = true ∧
    queued.wr - queued.rd < queued.cfg.capacity ∧ [0xFFFF, 0].length = queued.cfg.frameLen ∧
    (∀ v ∈ [0xFFFF, 0], v < 2 ^ 16) ∧
    (2 ^ queued.cfg.cursorW % queued.cfg.capacity = 0 ∨ queued.wr + 1 ≠ 2 ^ queued.cfg.cursorW) ∧
    (queued.rd ≤ 1 ∧ 1 < queued.wr) ∧ queued.wr - queued.rd ≠ 0 :=
  ⟨queued_inv, queued_history, by decide⟩

/-- UnreadFramesAreNotOverwritten: a push into a buffer with unread frames. -/
theorem witness_unread :
    midway.Inv ∧ midway.init = true ∧
    (after (exec (.rbPush .producer [1, 2]) midway)).isSome = true ∧ midway.rd ≤ 4 ∧ 4 < midway.wr :=
  ⟨midway_inv, by decide⟩

/-- ObservedFillIsOneSided: a step in which a push raises the fill and one in which nothing moves. -/
theorem witness_observed_fill :
    waiting.Inv ∧ waiting.init = true ∧
    ((after (step waiting)).map fun t =>
      (t.log.head?.map Event.startsSession, t.poppedFrames == waiting.poppedFrames, t.fill)) =
      some (some false, true, 1) ∧
    ((after (step State.reset)).map fun t => (t.log.length, t.pushedFrames == [], t.fill)) =
      some (0, true, 0) :=
  ⟨waiting_inv, by decide⟩

/-- SessionResetStartsASession: every clause. -/
theorem witness_session_reset :
    Agent.producer ≠ .host ∧ waiting.wait ≠ none ∧ midway.wait = none := by decide

/-- ResetStateIsASessionStart: a power-on state with other values in the unspecified elements. -/
theorem witness_reset_state :
    let u : State := { State.reset with lfsr := 0x123#16, rd := 3, wr := 9, overflow := true, wait := some 2 }
    u.cfg = Config.default ∧ u.slots = [] ∧ u.ports = ⟨[], [], []⟩ ∧ u.turns = [] := by decide

/-- WrongAgentIsRefused, NotResetIsRefused, OperandRangeIsRefused: for each clause a command that meets its
hypotheses. -/
theorem witness_refusals :
    ¬ (Agent.consumer = .producer) ∧
    (0x8#4 ≤ (Instr.rbStatus .host).opcode ∧ (Instr.rbStatus .host).opcode ≤ 0xE#4 ∧
      (Instr.rbStatus .host).agent ∈ admittedAgents (Instr.rbStatus .host).opcode ∧
      (State.powerOn State.reset).init = false) ∧
    (Instr.unpackRun .host []).opcode < 0x8#4 ∧
    ((∃ v ∈ [0, 0x10000], 0xFFFF < v) ∧
      (Instr.rbPush .producer [0, 0x10000]).agent ∈ admittedAgents (Instr.rbPush .producer []).opcode ∧
      State.reset.init = true) ∧
    ¬ (∃ v ∈ [0, 0xFFFF], 0xFFFF < v) := by decide

/-- FaultsHaveTheirCauses: one command for each of the seven faults. -/
theorem witness_faults :
    replied (exec (.reserved0xF .host []) State.reset) = some (.fault .illegalOp) ∧
    replied (exec (.rbPop .host) State.reset) = some (.fault (.wrongAgent 0xB#4 .host)) ∧
    replied (exec (.rbPop .consumer) (State.powerOn State.reset)) = some (.fault .notReset) ∧
    replied (exec (.codecReadReq .host 0x80) State.reset) = some (.fault (.operandRange 0)) ∧
    replied (exec (.rbPush .producer [1]) State.reset) = some (.fault (.length 1)) ∧
    replied (exec (.sessionReset .host) waiting) = some (.fault .resetBusy) ∧
    replied (exec (.rbPush .producer [1, 2])
      { State.reset with cfg := { Config.default with capacity := 3, cursorW := 3 }, rd := 6, wr := 7 }) =
      some (.fault .cursorWrap) := by decide

/-- FaultsChangeNothingAndAreKept: a fault, and a step after it from a run that is not correct. -/
theorem witness_fault_record :
    (after (exec (.rbPop .host) State.reset)).map (fun t => (t.log, t.faults)) =
      some ([⟨.rbPop .host, .fault (.wrongAgent 0xB#4 .host)⟩],
        [(.rbPop .host, .wrongAgent 0xB#4 .host)]) ∧
    ((after (exec (.rbPop .host) waiting)).bind fun t => after (step t)).map
      (fun t => decide t.Correct) = some false := by decide

/-- WritersKeepTheirDiscipline, CommandsKeepTheRest: commands that move each cursor, the LFSR, a slot,
`S.init` and the wait. -/
theorem witness_writers :
    Memory.wf (blankFrame midway.cfg) midway.slots ∧
    (after (exec (.rbPush .producer [1, 2]) midway)).map (fun t => (t.wr, t.slot 0)) =
      some (6, [1#16, 2#16]) ∧
    (after (exec (.rbPop .consumer) midway)).map State.rd = some 3 ∧
    (after (exec (.lfsrNext .consumer) midway)).map State.lfsr = some 0x800#16 ∧
    (after (exec (.sessionReset .host) (State.powerOn midway))).map State.init = some true ∧
    (after (exec (.rbWait .consumer 4) midway)).map State.wait = some (some 4) := by decide

/-- PureCommandsUseNoState: the first and the last pure code, two states of one configuration. -/
theorem witness_pure :
    (0x1#4 ≤ (Instr.codecWrite .host 0 0).opcode ∧ (Instr.codecWrite .host 0 0).opcode ≤ 0x7#4) ∧
    (0x1#4 ≤ (Instr.unpackSlice .host []).opcode ∧ (Instr.unpackSlice .host []).opcode ≤ 0x7#4) ∧
    midway.cfg = State.reset.cfg := by decide

/-- StepRunsTheDecodedCommand: no turn, a turn without a command, a turn with one, and a malformed record. -/
theorem witness_step :
    waiting.cfg.WF ∧ State.reset.turns = [] ∧ waiting.turns = .producer :: [.consumer] ∧
    (Agent.producer = .consumer → waiting.wait = none) ∧ waiting.ports.of .host = [] ∧
    waiting.ports.of .producer = encode (.rbPush .producer [7, 8]) :: [] ∧
    decoded (decode .producer (encode (.rbPush .producer [7, 8]))) = some (.rbPush .producer [7, 8]) ∧
    decoded (decode .producer ⟨0x1#4, []⟩) = none := by decide

/-- HeldConsumerIssuesNothing: a held consumer's turn that completes the wait. -/
theorem witness_held :
    waiting.wait = some 1 ∧
    (after (step { waiting with wr := 1, turns := [.consumer] })).map State.wait = some none := by decide

/-- StepKeepsTheInvariant, StepKeepsTheQueueHistory, StepKeepsThePatternHistory: a state between steps with
both histories and a step from it. -/
theorem witness_invariant :
    waiting.Inv ∧ waiting.QueueHistory ∧ waiting.PatternHistory ∧
    (after (step waiting)).map State.init = some true :=
  ⟨waiting_inv,
    ⟨rfl, rfl, rfl, fun k _ h => absurd h (Nat.not_lt_zero k), by decide⟩, ⟨rfl, rfl⟩, by decide⟩

/-- FramesLeaveInTheOrderTheyEntered: a configuration, commands and turns, and the run of a push and a pop. -/
theorem witness_order :
    Config.default.WF ∧
    ((after (Host.Core.run Sys2Proof.core 2
      { State.reset with
        ports := ⟨[encode (.rbPush .producer [7, 8])], [encode (.rbPop .consumer)], []⟩
        turns := [.producer, .consumer] })).map fun t => (t.pushedFrames, t.poppedFrames)) =
      some ([[7#16, 8#16]], [[7#16, 8#16]]) := by decide

/-- DecodeAndEncodeAgree, second clause; DecodingIsTotal needs none. -/
theorem witness_decode :
    decoded (decode .host ⟨0x6#4, [.seq [1, 2, 3]]⟩) = some (.unpackRun .host [1, 2, 3]) := by decide

/-- BurstRequestCollidesWithWriteTo7F: the constants and the largest start address. -/
theorem witness_collision :
    State.reset.cfg.layout = Layout.spec ∧ State.reset.cfg.burstCmd = 0xFF#8 ∧
    State.reset.cfg.sadrPos = 17 ∧ 0x7F < 2 ^ 7 := by decide

end Sys2Proof.Tests
end

/-! SUPPORT. What every command leaves unchanged (spec/00_scope.md R11, spec/10_state.md R20): each way a
command can leave the state keeps the fields below, or is the one command that may write them. -/

namespace Sys2Proof.Machine

section frame
variable {s t : State} {i : Instr}

theorem ExecStep.cfg_eq (h : ExecStep s i t) : t.cfg = s.cfg := by cases h <;> rfl

theorem ExecStep.ports_eq (h : ExecStep s i t) : t.ports = s.ports := by cases h <;> rfl

theorem ExecStep.turns_eq (h : ExecStep s i t) : t.turns = s.turns := by cases h <;> rfl

/-- A wait that holds the consumer has no reply yet; every other command completes with one. -/
theorem ExecStep.log_cases (h : ExecStep s i t) : t.log = s.log ∨ ∃ r, t.log = ⟨i, r⟩ :: s.log := by
  cases h
  case held => exact .inl rfl
  all_goals exact .inr ⟨_, rfl⟩

theorem ExecStep.eq_sessionReset_of_init_ne (h : ExecStep s i t) (hne : t.init ≠ s.init) :
    i = .sessionReset .host := by
  cases h
  case reset => rfl
  all_goals exact absurd rfl hne

theorem ExecStep.eq_rbWait_of_wait_ne (h : ExecStep s i t) (hne : t.wait ≠ s.wait) :
    ∃ n, i = .rbWait .consumer n := by
  cases h
  case lifted n _ _ => exact ⟨n, rfl⟩
  case held n _ _ => exact ⟨n, rfl⟩
  all_goals exact absurd rfl hne

end frame

/-- Settles O45: each clause is a frame fact about the ways a command can leave the state. -/
theorem commandsKeepTheRest : Obligations.CommandsKeepTheRest := by
  intro i s t h
  have hs : ExecStep s i t := exec_cases h
  exact ⟨hs.cfg_eq, hs.ports_eq, hs.turns_eq, hs.log_cases, hs.eq_sessionReset_of_init_ne,
    hs.eq_rbWait_of_wait_ne⟩

/-! SUPPORT. Which configurations a step refuses (R12): a turn never gives that refusal itself, because
every command has a next state, and `Layout.WF` says that no bit of the word lies in two fields. -/

section next
variable {i : Instr} {s : State}

theorem attempt_next {checks : List (Option Fault)} {effect : Host.Outcome State Fault Refusal}
    (h : ∃ t, effect = .next t) : ∃ t, attempt i checks s effect = .next t := by
  unfold attempt
  split
  · exact ⟨_, rfl⟩
  · exact h

theorem holdUntil_next (a : Agent) (n : Nat) (s : State) : ∃ t, holdUntil a n s = .next t := by
  unfold holdUntil
  split <;> exact ⟨_, rfl⟩

/-- A command never stops the machine and is never left without a meaning (R200). -/
theorem exec_next (i : Instr) (s : State) : ∃ t, exec i s = .next t := by
  cases i with
  | reserved0xF => exact ⟨_, rfl⟩
  | rbPush =>
    refine attempt_next ?_
    split
    · exact ⟨_, rfl⟩
    · split <;> exact ⟨_, rfl⟩
  | rbPop =>
    refine attempt_next ?_
    split <;> exact ⟨_, rfl⟩
  | rbWait a n => exact attempt_next (holdUntil_next a n s)
  | _ => exact attempt_next ⟨_, rfl⟩

theorem issueNext_ne_illFormedConfig (a : Agent) (s : State) :
    issueNext a s ≠ .refused .illFormedConfig := by
  unfold issueNext
  split
  · simp
  · rename_i c cs _
    split
    · rename_i i _
      obtain ⟨t, ht⟩ := exec_next i { s with ports := s.ports.put a cs }
      simp [ht]
    · simp

theorem takeTurn_ne_illFormedConfig (a : Agent) (s : State) :
    takeTurn a s ≠ .refused .illFormedConfig := by
  unfold takeTurn
  split
  · rename_i n _
    obtain ⟨t, ht⟩ := holdUntil_next .consumer n s
    simp [ht]
  · exact issueNext_ne_illFormedConfig _ s

theorem runTurn_ne_illFormedConfig (s : State) : runTurn s ≠ .refused .illFormedConfig := by
  unfold runTurn
  split
  · simp
  · exact takeTurn_ne_illFormedConfig _ _

theorem step_eq_illFormedConfig_iff (s : State) :
    step s = .refused .illFormedConfig ↔ ¬ s.cfg.WF := by
  unfold step
  split
  · rename_i hwf
    exact iff_of_false (runTurn_ne_illFormedConfig s) (not_not_intro hwf)
  · rename_i hwf
    exact iff_of_true rfl hwf

end next

/-- Two fields are apart exactly when no bit lies in both; the lower end of one of them would be such a bit. -/
theorem apart_iff_no_common_bit (a m b n : Nat) :
    Layout.Apart a (m + 1) b (n + 1) ↔ ∀ k, ¬ ((a ≤ k ∧ k ≤ a + m) ∧ (b ≤ k ∧ k ≤ b + n)) := by
  constructor
  · intro h k
    unfold Layout.Apart at h
    omega
  · intro h
    have ha := h a
    have hb := h b
    unfold Layout.Apart
    omega

/-- R62 bit by bit: the fields lie inside the word and no bit lies in two of them. -/
theorem layout_wf_iff (l : Layout) :
    l.WF ↔ l.addrPos ≤ 25 ∧ l.wrPos ≤ 31 ∧ l.dataPos ≤ 8 ∧
      ∀ b, ¬ ((l.addrPos ≤ b ∧ b ≤ l.addrPos + 6) ∧ b = l.wrPos) ∧
        ¬ ((l.addrPos ≤ b ∧ b ≤ l.addrPos + 6) ∧ (l.dataPos ≤ b ∧ b ≤ l.dataPos + 23)) ∧
        ¬ (b = l.wrPos ∧ (l.dataPos ≤ b ∧ b ≤ l.dataPos + 23)) := by
  have single (b : Nat) : (l.wrPos ≤ b ∧ b ≤ l.wrPos + 0) ↔ b = l.wrPos := by omega
  rw [Layout.WF, apart_iff_no_common_bit _ 6 _ 0, apart_iff_no_common_bit _ 6 _ 23,
    apart_iff_no_common_bit _ 0 _ 23]
  simp only [single, forall_and, Nat.reduceLeDiff, ← Nat.le_sub_iff_add_le, Nat.reduceSub]

/-- Settles O49: a step refuses exactly the configurations that are not `Config.WF`, and its layout clause
says the same as the bitwise one. -/
theorem illFormedConfigurationIsRefused : Obligations.IllFormedConfigurationIsRefused := by
  intro s c l disjointInside
  have hl : c.layout.WF ↔ disjointInside := layout_wf_iff l
  rw [step_eq_illFormedConfig_iff, not_iff_not, Config.WF, hl]
  constructor
  · rintro ⟨layout, sadr, width, seedPos, seedLt, cap, len, cursor, capLt⟩
    exact ⟨Nat.one_le_iff_ne_zero.mp seedPos, seedLt, width, cap, capLt, cursor, len, sadr, layout⟩
  · rintro ⟨seedNe, seedLt, width, cap, capLt, cursor, len, sadr, layout⟩
    exact ⟨layout, sadr, width, Nat.one_le_iff_ne_zero.mpr seedNe, seedLt, cap, len, cursor, capLt⟩

end Sys2Proof.Machine

/-! SUPPORT. The update of the LFSR keeps the register inside its width and never empties it (R24, R152,
R154): a register of which nothing is left after the shift held the value 1, whose only bit is a tap. -/

namespace Sys2Proof.Machine

section lfsrStep
variable {width : Nat} {v : Sample}

/-- The new register in numbers: the old one halved, beside the feedback bit at the top (R152). -/
theorem toNat_lfsrStep (hw : width = 12 ∨ width = 16) :
    (lfsrStep width v).toNat = v.toNat / 2 ||| (lfsrFeedback v).toNat * 2 ^ (width - 1) := by
  have top : ((BitVec.ofBool (lfsrFeedback v)).setWidth 16 <<< (width - 1)).toNat =
      (lfsrFeedback v).toNat * 2 ^ (width - 1) := by
    rcases hw with rfl | rfl <;> cases lfsrFeedback v <;> rfl
  rw [lfsrStep, BitVec.toNat_or, top, BitVec.toNat_ushiftRight, Nat.shiftRight_eq_div_pow, pow_one]

theorem lfsrStep_lt (hw : width = 12 ∨ width = 16) (hv : v.toNat < 2 ^ width) :
    (lfsrStep width v).toNat < 2 ^ width := by
  have hb : (lfsrFeedback v).toNat ≤ 1 := Bool.toNat_le _
  rw [toNat_lfsrStep hw]
  refine Nat.or_lt_two_pow (by omega) ?_
  rcases hw with rfl | rfl <;> omega

theorem lfsrStep_ne_zero (hw : width = 12 ∨ width = 16) (hv : v ≠ 0#16) : lfsrStep width v ≠ 0#16 := by
  intro h
  have hz : v.toNat / 2 ||| (lfsrFeedback v).toNat * 2 ^ (width - 1) = 0 := by
    rw [← toNat_lfsrStep hw, h]
    rfl
  obtain ⟨half, top⟩ := Nat.or_eq_zero_iff.mp hz
  have one : v = 1#16 := by bv_omega
  subst one
  exact absurd top (Nat.mul_ne_zero Nat.one_ne_zero (by positivity))

end lfsrStep

/-- A well-formed seed fits the register (R12). -/
theorem toNat_seed {c : Config} (h : c.WF) : (BitVec.ofNat 16 c.lfsrSeed).toNat = c.lfsrSeed := by
  obtain ⟨-, -, width, -, seedLt, -⟩ := h
  have : c.lfsrSeed < 2 ^ 16 := by rcases width with hw | hw <;> rw [hw] at seedLt <;> omega
  exact Nat.mod_eq_of_lt this

/-! SUPPORT. Every update of the state keeps the machine's invariant (R24 to R28, R173). -/

section inv
variable {s t : State}

theorem State.Shaped.of_eq (h : s.Shaped) (cfg : t.cfg = s.cfg) (lfsr : t.lfsr = s.lfsr)
    (slots : t.slots = s.slots) : t.Shaped := by
  constructor <;> simp only [cfg, lfsr, slots]
  exacts [h.lfsr, h.slots, h.slotIndex, h.frameLen]

theorem State.InSession.of_eq (h : s.InSession) (cfg : t.cfg = s.cfg) (lfsr : t.lfsr = s.lfsr)
    (rd : t.rd = s.rd) (wr : t.wr = s.wr) : t.InSession := by
  constructor <;> simp only [cfg, lfsr, rd, wr]
  exacts [h.lfsr, h.cursors, h.fill, h.noWrap]

/-- The invariant reads the configuration, the LFSR, the cursors, the slots, `S.init` and the wait, and no
other element. -/
theorem State.Inv.of_eq (h : s.Inv) (cfg : t.cfg = s.cfg) (lfsr : t.lfsr = s.lfsr) (rd : t.rd = s.rd)
    (wr : t.wr = s.wr) (slots : t.slots = s.slots) (init : t.init = s.init)
    (wait : t.wait.isSome = true → t.init = true) : t.Inv where
  cfg := cfg ▸ h.cfg
  shaped := h.shaped.of_eq cfg lfsr slots
  session hi := (h.session (init ▸ hi)).of_eq cfg lfsr rd wr
  wait := wait

theorem State.Inv.reply (h : s.Inv) (i : Instr) (r : Reply) : (s.reply i r).Inv :=
  h.of_eq rfl rfl rfl rfl rfl rfl h.wait

theorem State.Inv.setOverflow (h : s.Inv) : s.setOverflow.Inv :=
  h.of_eq rfl rfl rfl rfl rfl rfl h.wait

theorem State.Inv.setTurns (h : s.Inv) (rest : List Agent) : State.Inv { s with turns := rest } :=
  h.of_eq rfl rfl rfl rfl rfl rfl h.wait

theorem State.Inv.setPorts (h : s.Inv) (p : Ports) : State.Inv { s with ports := p } :=
  h.of_eq rfl rfl rfl rfl rfl rfl h.wait

/-- In a session any wait may be held, or none. -/
theorem State.Inv.setWait (h : s.Inv) (hi : s.init = true) (w : Option Nat) :
    State.Inv { s with wait := w } :=
  h.of_eq rfl rfl rfl rfl rfl rfl fun _ => hi

theorem State.Inv.setLfsr (h : s.Inv) {v : Sample} (width : v.toNat < 2 ^ s.cfg.lfsrW) (ne : v ≠ 0#16) :
    State.Inv { s with lfsr := v } where
  cfg := h.cfg
  shaped := ⟨width, h.shaped.slots, h.shaped.slotIndex, h.shaped.frameLen⟩
  session hi :=
    have hs := h.session hi
    ⟨ne, hs.cursors, hs.fill, hs.noWrap⟩
  wait := h.wait

theorem State.Inv.seed_lt (h : s.Inv) : (BitVec.ofNat 16 s.cfg.lfsrSeed).toNat < 2 ^ s.cfg.lfsrW := by
  obtain ⟨-, -, -, -, seedLt, -⟩ := h.cfg
  rwa [toNat_seed h.cfg]

theorem State.Inv.seed_ne_zero (h : s.Inv) : BitVec.ofNat 16 s.cfg.lfsrSeed ≠ 0#16 := by
  intro hz
  obtain ⟨-, -, -, seedPos, -⟩ := h.cfg
  have seed := toNat_seed h.cfg
  simp only [hz, BitVec.toNat_zero] at seed
  omega

theorem State.Inv.reseed (h : s.Inv) : State.Inv { s with lfsr := BitVec.ofNat 16 s.cfg.lfsrSeed } :=
  h.setLfsr h.seed_lt h.seed_ne_zero

/-- A draw needs a session, in which the register is not zero (R24). -/
theorem State.Inv.draw (h : s.Inv) (hi : s.init = true) :
    State.Inv { s with lfsr := lfsrStep s.cfg.lfsrW s.lfsr } := by
  obtain ⟨-, -, width, -⟩ := h.cfg
  exact h.setLfsr (lfsrStep_lt width h.shaped.lfsr) (lfsrStep_ne_zero width (h.session hi).lfsr)

/-- `SESSION_RESET` needs no session before it: it writes every element a session is about (R230). -/
theorem State.Inv.startSession (h : s.Inv) : s.startSession.Inv where
  cfg := h.cfg
  shaped := ⟨h.seed_lt, h.shaped.slots, h.shaped.slotIndex, h.shaped.frameLen⟩
  session _ := ⟨h.seed_ne_zero, Nat.le_refl 0, Nat.zero_le _, .inr (Nat.two_pow_pos _)⟩
  wait _ := rfl

/-- A push keeps the shapes: its slot index is a remainder by `CAPACITY`. -/
theorem State.Shaped.publish (h : s.Shaped) (cap : 1 ≤ s.cfg.capacity) {f : Frame}
    (len : f.length = s.cfg.frameLen) : (s.publish f).Shaped where
  lfsr := h.lfsr
  slots := State.publish_slots_wf h.slots
  slotIndex e he := by
    rcases State.mem_publish_slots he with rfl | he
    · exact Nat.mod_lt _ cap
    · exact h.slotIndex e he
  frameLen e he := by
    rcases State.mem_publish_slots he with rfl | he
    · exact len
    · exact h.frameLen e he

/-- A push into a buffer that is not full, and that the wrap check lets through, keeps the session's bounds
(R174). -/
theorem State.InSession.publish (h : s.InSession) (room : s.fill ≠ s.cfg.capacity)
    (noWrap : s.wouldWrap = false) (f : Frame) : (s.publish f).InSession := by
  obtain ⟨lfsr, cursors, fill, wraps⟩ := h
  refine ⟨lfsr, Nat.le_succ_of_le cursors, ?_, ?_⟩
  · have : s.wr < s.rd + s.cfg.capacity := by
      unfold State.fill at room
      omega
    exact this
  · have : ¬ (2 ^ s.cfg.cursorW % s.cfg.capacity ≠ 0 ∧ s.wr + 1 = 2 ^ s.cfg.cursorW) := by
      simpa [State.wouldWrap] using noWrap
    show 2 ^ s.cfg.cursorW % s.cfg.capacity = 0 ∨ s.wr + 1 < 2 ^ s.cfg.cursorW
    omega

theorem State.Inv.publish (h : s.Inv) {f : Frame} (len : f.length = s.cfg.frameLen)
    (room : s.fill ≠ s.cfg.capacity) (noWrap : s.wouldWrap = false) : (s.publish f).Inv := by
  obtain ⟨-, -, -, -, -, cap, -⟩ := h.cfg
  exact ⟨h.cfg, h.shaped.publish cap len, fun hi => (h.session hi).publish room noWrap f, h.wait⟩

/-- A pop of a buffer that is not empty leaves the read cursor at most at the write cursor (R179). -/
theorem State.InSession.release (h : s.InSession) (occupied : s.fill ≠ 0) : s.release.InSession := by
  obtain ⟨lfsr, cursors, fill, wraps⟩ := h
  have lt : s.rd < s.wr := by
    unfold State.fill at occupied
    omega
  refine ⟨lfsr, lt, ?_, wraps⟩
  show s.wr ≤ s.rd + 1 + s.cfg.capacity
  omega

theorem State.Inv.release (h : s.Inv) (occupied : s.fill ≠ 0) : s.release.Inv where
  cfg := h.cfg
  shaped := h.shaped.of_eq rfl rfl rfl
  session hi := (h.session hi).release occupied
  wait := h.wait

/-- Every way a command can leave the state keeps the invariant. -/
theorem ExecStep.inv {i : Instr} (h : ExecStep s i t) (hs : s.Inv) : t.Inv := by
  cases h with
  | fault _ f => exact hs.reply _ _
  | read _ r _ => exact hs.reply _ _
  | reset _ => exact hs.startSession.reply _ _
  | reseed _ _ _ => exact hs.reseed.reply _ _
  | draw init => exact (hs.draw init).reply _ _
  | drop _ _ _ => exact hs.setOverflow.reply _ _
  | push frame _ _ length room noWrap =>
    exact (hs.publish ((toFrame_length frame).trans length) room noWrap).reply _ _
  | pop _ occupied => exact (hs.release occupied).reply _ _
  | lifted n init _ => exact (hs.setWait init none).reply _ _
  | held n init _ => exact hs.setWait init (some n)

/-- So does the check of a held wait, which is held in a session only. -/
theorem State.Inv.holdUntil {a : Agent} {n : Nat} (hs : s.Inv) (wait : s.wait = some n)
    (h : holdUntil a n s = .next t) : t.Inv := by
  have init : s.init = true := hs.wait (by simp [wait])
  rcases holdUntil_cases h with ⟨-, rfl⟩ | ⟨-, rfl⟩
  · exact (hs.setWait init none).reply _ _
  · exact hs.setWait init (some n)

theorem StepCase.inv (h : StepCase s t) (hs : s.Inv) : t.Inv := by
  cases h with
  | idle _ => exact hs
  | silent _ rest _ => exact hs.setTurns rest
  | poll n rest _ _ wait turn => exact (hs.setTurns rest).holdUntil wait turn
  | issue a rest _ cs _ _ _ _ _ _ run =>
    exact (exec_cases run).inv ((hs.setTurns rest).setPorts (s.ports.put a cs))

end inv

/-- Settles O50: each case of a step is an update that keeps the invariant. -/
theorem stepKeepsTheInvariant : Obligations.StepKeepsTheInvariant := by
  intro s t hs h
  obtain ⟨-, hcase⟩ := step_cases h
  exact hcase.inv hs

/-! SUPPORT. Which command may write the overflow flag, a cursor, the LFSR and a slot (R25 to R29). -/

section writers
variable {s t : State} {i : Instr}

/-- A command that changes the overflow flag is a refused push or a reset (R27). -/
theorem ExecStep.overflow_cases (h : ExecStep s i t) :
    t.overflow = s.overflow ∨
    (s.fill = s.cfg.capacity ∧ ∃ frame, i = .rbPush .producer frame ∧
      t = s.setOverflow.reply i (.ok (.pushed false))) ∨
    (i = .sessionReset .host ∧ t = s.startSession.reply i (.ok .none)) := by
  cases h
  case drop frame _ full => exact .inr (.inl ⟨full, frame, rfl, rfl⟩)
  case reset => exact .inr (.inr ⟨rfl, rfl⟩)
  all_goals exact .inl rfl

theorem ExecStep.of_wr_ne (h : ExecStep s i t) (hne : t.wr ≠ s.wr) :
    i = .sessionReset .host ∨ t.wr = s.wr + 1 ∧ ∃ frame, i = .rbPush .producer frame := by
  cases h
  case reset => exact .inl rfl
  case push frame _ _ _ _ _ => exact .inr ⟨rfl, frame, rfl⟩
  all_goals exact absurd rfl hne

theorem ExecStep.of_rd_ne (h : ExecStep s i t) (hne : t.rd ≠ s.rd) :
    i = .sessionReset .host ∨ t.rd = s.rd + 1 ∧ i = .rbPop .consumer := by
  cases h
  case reset => exact .inl rfl
  case pop => exact .inr ⟨rfl, rfl⟩
  all_goals exact absurd rfl hne

theorem ExecStep.of_lfsr_ne (h : ExecStep s i t) (hne : t.lfsr ≠ s.lfsr) :
    i = .lfsrNext .consumer ∨ t.lfsr = BitVec.ofNat 16 s.cfg.lfsrSeed ∧
      (i = .sessionReset .host ∨ i = .lfsrReseed .consumer ∨ i = .lfsrReseed .host) := by
  cases h
  case draw => exact .inl rfl
  case reset => exact .inr ⟨rfl, .inl rfl⟩
  case reseed a agent _ =>
    refine .inr ⟨rfl, .inr ?_⟩
    cases a with
    | producer => exact absurd rfl agent
    | consumer => exact .inl rfl
    | host => exact .inr rfl
  all_goals exact absurd rfl hne

/-- A slot that reads otherwise is the one a push wrote, which found the buffer not full. -/
theorem ExecStep.of_slot_ne {k : Nat} (h : ExecStep s i t) (wf : Memory.wf (blankFrame s.cfg) s.slots)
    (hne : t.slot k ≠ s.slot k) :
    (∃ frame, i = .rbPush .producer frame) ∧ k = s.pushSlot ∧ s.fill ≠ s.cfg.capacity := by
  cases h
  case push frame _ _ _ room _ =>
    refine ⟨⟨frame, rfl⟩, ?_, room⟩
    by_contra hk
    rw [State.reply_slot, State.publish_slot wf, if_neg hk] at hne
    exact hne rfl
  all_goals exact absurd rfl hne

/-- While the buffer is not full, the slot of the next push is that of no unread frame (R183). -/
theorem State.InSession.unread_ne_pushSlot (h : s.InSession) (room : s.fill ≠ s.cfg.capacity) {p : Nat}
    (lo : s.rd ≤ p) (hi : p < s.wr) : p % s.cfg.capacity ≠ s.pushSlot := by
  have notFull : s.wr < s.rd + s.cfg.capacity := by
    have := h.fill
    unfold State.fill at room
    omega
  exact mod_ne_of_lt hi (by omega)

end writers

/-- Settles O25: of the two commands that write the flag, the refused push sets it and the reset clears it. -/
theorem overflowFlagIsSticky : Obligations.OverflowFlagIsSticky := by
  intro i s t h
  rcases (exec_cases h).overflow_cases with same | ⟨full, frame, push, rfl⟩ | ⟨reset, rfl⟩
  · exact ⟨fun hs ht => by simp [same, hs] at ht, fun hs ht => by simp [same, hs] at ht⟩
  · exact ⟨fun _ _ => ⟨full, frame, push, rfl⟩, fun _ ht => nomatch ht⟩
  · exact ⟨fun _ ht => (nomatch ht), fun _ _ => ⟨reset, rfl⟩⟩

/-- Settles O33: the only slot a command writes is that of a push that found room, and no unread frame is
there. -/
theorem unreadFramesAreNotOverwritten : Obligations.UnreadFramesAreNotOverwritten := by
  intro i s t p hs init h lo hi
  by_contra hne
  obtain ⟨-, slot, room⟩ := (exec_cases h).of_slot_ne hs.shaped.slots hne
  exact (hs.session init).unread_ne_pushSlot room lo hi slot

/-- Settles O44: one clause for each element. -/
theorem writersKeepTheirDiscipline : Obligations.WritersKeepTheirDiscipline := by
  intro i s t wf h
  have hs : ExecStep s i t := exec_cases h
  refine ⟨hs.of_wr_ne, hs.of_rd_ne, hs.of_lfsr_ne, fun k hne => ?_⟩
  obtain ⟨push, slot, -⟩ := hs.of_slot_ne wf hne
  exact ⟨push, slot⟩

/-- An attempt that only answers gives one reply in any two states: neither its checks nor its result
look at them (R31). -/
theorem attempt_finish_uniform (i : Instr) (checks : List (Option Fault)) (r : Result) (s s' : State) :
    ∃ reply, attempt i checks s (finish i r s) = .next (s.reply i reply) ∧
      attempt i checks s' (finish i r s') = .next (s'.reply i reply) := by
  unfold attempt
  split
  · exact ⟨_, rfl, rfl⟩
  · exact ⟨_, rfl, rfl⟩

/-- Settles O46: of the state, the checks and the results of the codes 0x1 to 0x7 mention only the
configuration. -/
theorem pureCommandsUseNoState : Obligations.PureCommandsUseNoState := by
  intro i s s' lo hi hcfg
  cases i with
  | codecWrite a address value =>
    simp only [exec, execCodecWrite, hcfg]
    exact attempt_finish_uniform ..
  | codecReadReq a address =>
    simp only [exec, execCodecReadReq, hcfg]
    exact attempt_finish_uniform ..
  | codecReadResp a rx0 rx1 rx2 rx3 =>
    simp only [exec, execCodecReadResp, hcfg]
    exact attempt_finish_uniform ..
  | codecBurstReq a startAddress =>
    simp only [exec, execCodecBurstReq, hcfg]
    exact attempt_finish_uniform ..
  | unpack3 a b0 b1 b2 => exact attempt_finish_uniform ..
  | unpackRun a bytes => exact attempt_finish_uniform ..
  | unpackSlice a slice => exact attempt_finish_uniform ..
  | sessionReset => exact absurd lo (by simp only [Instr.opcode]; decide)
  | _ => exact absurd hi (by simp only [Instr.opcode]; decide)

end Sys2Proof.Machine

/-! SUPPORT. The byte order of a word on the wire (R43, R44): `UNBE4` in numbers, from which both
inverses follow by base-256 arithmetic. -/

namespace Sys2Proof.Machine

section byteOrder

/-- The left operand of an append carries the weight of the right one's width. -/
theorem toNat_append_eq_mul_add {m n : Nat} (x : BitVec m) (y : BitVec n) :
    (x ++ y).toNat = x.toNat * 2 ^ n + y.toNat := by
  rw [BitVec.toNat_append, ← Nat.shiftLeft_add_eq_or_of_lt y.isLt, Nat.shiftLeft_eq]

theorem toNat_unbe4 (b0 b1 b2 b3 : Byte) : (unbe4 b0 b1 b2 b3).toNat =
    b0.toNat * 2 ^ 24 + b1.toNat * 2 ^ 16 + b2.toNat * 2 ^ 8 + b3.toNat := by
  simp only [unbe4, toNat_append_eq_mul_add]
  omega

/-- Each sent byte is one base-256 digit of the word. -/
@[simp] theorem be4_unbe4 (b0 b1 b2 b3 : Byte) : be4 (unbe4 b0 b1 b2 b3) = [b0, b1, b2, b3] := by
  simp only [be4, List.cons.injEq, and_true]
  refine ⟨?_, ?_, ?_, ?_⟩ <;> apply BitVec.eq_of_toNat_eq <;>
    rw [BitVec.extractLsb'_toNat, toNat_unbe4, Nat.shiftRight_eq_div_pow] <;> omega

/-- A word is the sum of its base-256 digits (the inverse R44 infers). -/
theorem unbe4_of_be4_eq {w : CommandWord} {b0 b1 b2 b3 : Byte} (h : be4 w = [b0, b1, b2, b3]) :
    unbe4 b0 b1 b2 b3 = w := by
  simp only [be4, List.cons.injEq, and_true] at h
  obtain ⟨rfl, rfl, rfl, rfl⟩ := h
  apply BitVec.eq_of_toNat_eq
  simp only [toNat_unbe4, BitVec.extractLsb'_toNat, Nat.shiftRight_eq_div_pow]
  omega

end byteOrder

/-- Settles O10: the bytes are the digits of the word in base 256, the first the most significant. -/
theorem wireBytesAreBigEndian : Obligations.WireBytesAreBigEndian :=
  ⟨fun b0 b1 b2 b3 => ⟨toNat_unbe4 b0 b1 b2 b3, be4_unbe4 b0 b1 b2 b3⟩,
    fun _ => ⟨_, _, _, _, rfl, unbe4_of_be4_eq rfl⟩⟩

end Sys2Proof.Machine

/-! SUPPORT. The operation map read backwards (R74, R75): a record is fixed by its code and its operands, and
each row of the map answers the command whose record it matched. -/

namespace Sys2Proof

section decodeEncode
variable {a : Agent} {c : Command} {i : Instr}

/-- The row of a command's code, with its operands, is the command's own. -/
@[simp] theorem decode_encode (i : Instr) : decode i.agent (encode i) = .ok i := by
  cases i <;> rfl

/-- The row of a record is selected by the number of its code. -/
theorem encode_eq_of_toNat (op : c.op.toNat = i.opcode.toNat) (operands : c.operands = i.operands) :
    encode i = c := by
  obtain ⟨_, _⟩ := c
  exact (Command.mk.injEq ..).mpr ⟨BitVec.eq_of_toNat_eq op.symm, operands.symm⟩

/-- Each row of the map keeps the code, every operand and the agent of the record; the reserved code's row
matches no operands, so its record keeps those it came with. -/
theorem encode_of_decode (h : decode a c = .ok i) : encode i = c ∧ i.agent = a := by
  unfold decode at h
  split at h
  case h_17 => exact nomatch h
  case h_16 op =>
    cases h
    exact ⟨encode_eq_of_toNat op rfl, rfl⟩
  all_goals
    rename_i op operands
    cases h
    exact ⟨encode_eq_of_toNat op operands, rfl⟩

end decodeEncode

/-- Settles O55: a command's record matches the command's own row, and a row that matches keeps the record. -/
theorem decodeAndEncodeAgree : Obligations.DecodeAndEncodeAgree :=
  ⟨decode_encode, fun _ _ _ => encode_of_decode⟩

/-- Settles O56: each record is the encoding of the command it decodes to. -/
theorem tableRecordsDecode : Obligations.TableRecordsDecode :=
  ⟨decode_encode (.sessionReset .host), decode_encode (.codecWrite .producer 0x2A 1),
    decode_encode (.unpack3 .consumer 0xAB 0xCD 0xEF), decode_encode (.lfsrNext .consumer),
    decode_encode (.rbPush .producer [0x100, 0x200]), decode_encode (.rbWait .consumer 6)⟩

end Sys2Proof

/-! SUPPORT. The fields of a command word (R62 to R65): a field that lies inside the word reads back what
was put in it, and it reads zero where only a field apart from it was written. -/

namespace Sys2Proof.Machine

section fields
variable {l : Layout} {p q w m : Nat}

theorem extractLsb'_shiftLeft_same (x : BitVec w) (inside : p + w ≤ 32) :
    (x.setWidth 32 <<< p).extractLsb' p w = x := by
  refine BitVec.eq_of_getLsbD_eq fun k hk => ?_
  have hpk : p + k < 32 := by omega
  simp [hk, hpk]

theorem extractLsb'_shiftLeft_apart (x : BitVec w) (h : Layout.Apart p w q m) :
    (x.setWidth 32 <<< p).extractLsb' q m = 0#m := by
  refine BitVec.eq_of_getLsbD_eq fun k hk => ?_
  have outside : q + k < p ∨ w ≤ q + k - p := by
    unfold Layout.Apart at h
    omega
  rcases outside with below | above
  · simp [below]
  · simp [BitVec.getLsbD_of_ge x _ above]

/-- The write bit as a field of width 1. -/
theorem getLsbD_eq_field (c : CommandWord) (p : Nat) : c.getLsbD p = (c.extractLsb' p 1).getLsbD 0 := by
  simp

/-- What any field of a write word reads is put together from its three parts. -/
theorem extractLsb'_writeWord (l : Layout) (a : Address) (v : Data) (q m : Nat) :
    (writeWord l a v).extractLsb' q m =
      (a.setWidth 32 <<< l.addrPos).extractLsb' q m |||
      ((1#1).setWidth 32 <<< l.wrPos).extractLsb' q m |||
      (v.setWidth 32 <<< l.dataPos).extractLsb' q m := by
  rw [← BitVec.extractLsb'_or, ← BitVec.extractLsb'_or]
  rfl

theorem responseData_writeWord (h : l.WF) (a : Address) (v : Data) :
    responseData l (writeWord l a v) = v := by
  obtain ⟨-, -, dataIn, -, addrData, wrData⟩ := h
  rw [responseData, extractLsb'_writeWord, extractLsb'_shiftLeft_apart a addrData,
    extractLsb'_shiftLeft_apart _ wrData, extractLsb'_shiftLeft_same v dataIn]
  simp

theorem writeWord_address (h : l.WF) (a : Address) (v : Data) :
    (writeWord l a v).extractLsb' l.addrPos 7 = a := by
  obtain ⟨addrIn, -, -, addrWr, addrData, -⟩ := h
  rw [extractLsb'_writeWord, extractLsb'_shiftLeft_same a addrIn,
    extractLsb'_shiftLeft_apart _ addrWr.symm, extractLsb'_shiftLeft_apart v addrData.symm]
  simp

theorem writeWord_writeBit (h : l.WF) (a : Address) (v : Data) :
    (writeWord l a v).getLsbD l.wrPos = true := by
  obtain ⟨-, wrIn, -, addrWr, -, wrData⟩ := h
  rw [getLsbD_eq_field, extractLsb'_writeWord, extractLsb'_shiftLeft_apart a addrWr,
    extractLsb'_shiftLeft_same _ wrIn, extractLsb'_shiftLeft_apart v wrData.symm]
  rfl

theorem readRequestWord_address (h : l.WF) (a : Address) :
    (readRequestWord l a).extractLsb' l.addrPos 7 = a := by
  obtain ⟨addrIn, -⟩ := h
  exact extractLsb'_shiftLeft_same a addrIn

theorem readRequestWord_writeBit (h : l.WF) (a : Address) :
    (readRequestWord l a).getLsbD l.wrPos = false := by
  obtain ⟨-, -, -, addrWr, -⟩ := h
  rw [getLsbD_eq_field, readRequestWord, extractLsb'_shiftLeft_apart a addrWr]
  rfl

theorem responseData_readRequestWord (h : l.WF) (a : Address) :
    responseData l (readRequestWord l a) = 0#24 := by
  obtain ⟨-, -, -, -, addrData, -⟩ := h
  exact extractLsb'_shiftLeft_apart a addrData

end fields

/-- Settles O6: one lemma per field of each word. -/
theorem fieldsReadBackUnderAnyLayout : Obligations.FieldsReadBackUnderAnyLayout :=
  fun _ a v h => ⟨responseData_writeWord h a v, writeWord_address h a v, writeWord_writeBit h a v,
    readRequestWord_address h a, readRequestWord_writeBit h a, responseData_readRequestWord h a⟩

end Sys2Proof.Machine

/-! SUPPORT. The words of the codec at this spec's layout and burst constants (R61 to R68): a word is fixed
by its bytes and by its three fields, and a burst-request word is a write word to 0x7F. -/

namespace Sys2Proof.Machine

section specWords
variable {w w' : CommandWord} {c : Config} {a : Address}

theorem specLayout_wf : Layout.spec.WF := by decide

/-- Four bytes fix their word (R44). -/
theorem be4_injective : Function.Injective be4 := fun _ _ h =>
  (unbe4_of_be4_eq rfl).symm.trans (unbe4_of_be4_eq h.symm)

/-- The fields of this spec's layout cover the word: no bit lies outside all three (R61). -/
theorem eq_of_fields_eq (address : w.extractLsb' 25 7 = w'.extractLsb' 25 7)
    (writeBit : w.getLsbD 24 = w'.getLsbD 24) (data : w.extractLsb' 0 24 = w'.extractLsb' 0 24) :
    w = w' := by
  refine BitVec.eq_of_getLsbD_eq fun k hk => ?_
  rcases Nat.lt_trichotomy k 24 with below | rfl | above
  · simpa [below] using congrArg (BitVec.getLsbD · k) data
  · exact writeBit
  · have inside : k - 25 < 7 := by omega
    have position : 25 + (k - 25) = k := by omega
    simpa [inside, position] using congrArg (BitVec.getLsbD · (k - 25)) address

/-- A word with the write bit set is the write word of its own address and data. -/
theorem writeWord_of_fields (h : w.getLsbD 24 = true) :
    writeWord Layout.spec (w.extractLsb' 25 7) (w.extractLsb' 0 24) = w :=
  eq_of_fields_eq (writeWord_address specLayout_wf _ _)
    ((writeWord_writeBit specLayout_wf _ _).trans h.symm) (responseData_writeWord specLayout_wf _ _)

/-- A word with no bit set below its address is the read-request word of that address. -/
theorem readRequestWord_of_address (h : w.extractLsb' 0 25 = 0#25) :
    readRequestWord Layout.spec (w.extractLsb' 25 7) = w := by
  have low {k : Nat} (hk : k < 25) : w.getLsbD k = false := by
    simpa [hk] using congrArg (BitVec.getLsbD · k) h
  have data : w.extractLsb' 0 24 = 0#24 := by
    refine BitVec.eq_of_getLsbD_eq fun k hk => ?_
    simp [low (Nat.lt_succ_of_lt hk)]
  exact eq_of_fields_eq (readRequestWord_address specLayout_wf _)
    ((readRequestWord_writeBit specLayout_wf _).trans (low (by decide)).symm)
    ((responseData_readRequestWord specLayout_wf _).trans data.symm)

/-- The write bit tells the two words apart. -/
theorem readRequestWord_ne_writeWord (a b : Address) (v : Data) :
    readRequestWord Layout.spec a ≠ writeWord Layout.spec b v := by
  intro h
  have writeBit := writeWord_writeBit specLayout_wf b v
  rw [← h, readRequestWord_writeBit specLayout_wf] at writeBit
  exact nomatch writeBit

/-- The data of four received bytes is the number of the last three (R106). -/
theorem responseData_unbe4 (b0 b1 b2 b3 : Byte) : responseData Layout.spec (unbe4 b0 b1 b2 b3) =
    BitVec.ofNat 24 (b1.toNat * 2 ^ 16 + b2.toNat * 2 ^ 8 + b3.toNat) := by
  apply BitVec.eq_of_toNat_eq
  rw [responseData, BitVec.extractLsb'_toNat, toNat_unbe4, BitVec.toNat_ofNat, Layout.spec, Nat.shiftRight_zero]
  omega

/-- The command byte of a burst request is the top byte of its word. -/
theorem burstWord_command (sadr : c.sadrPos + 7 ≤ 24) : (burstWord c a).extractLsb' 24 8 = c.burstCmd := by
  rw [burstWord, BitVec.extractLsb'_or, extractLsb'_shiftLeft_same c.burstCmd (by decide),
    extractLsb'_shiftLeft_apart a (.inl sadr), BitVec.or_zero]

/-- The start address reads back from its position in the word. -/
theorem burstWord_startAddress (sadr : c.sadrPos + 7 ≤ 24) :
    (burstWord c a).extractLsb' c.sadrPos 7 = a := by
  rw [burstWord, BitVec.extractLsb'_or, extractLsb'_shiftLeft_apart c.burstCmd (.inr sadr),
    extractLsb'_shiftLeft_same a (by omega), BitVec.zero_or]

/-- Below its start address a burst-request word is zero. -/
theorem burstWord_below (sadr : c.sadrPos ≤ 24) : (burstWord c a).extractLsb' 0 c.sadrPos = 0#c.sadrPos := by
  rw [burstWord, BitVec.extractLsb'_or, extractLsb'_shiftLeft_apart c.burstCmd (.inr (by omega)),
    extractLsb'_shiftLeft_apart a (.inr (by omega)), BitVec.or_zero]

/-- The collision of R68: the command byte 0xFF is the address 0x7F beside the write bit, and the start
address lies inside the data. -/
theorem burstWord_eq_writeWord (cmd : c.burstCmd = 0xFF#8) (sadr : c.sadrPos = 17) (a : Address) :
    burstWord c a = writeWord Layout.spec 0x7F#7 (a.setWidth 24 <<< 17) := by
  have top : (0xFF#8).setWidth 32 <<< 24 = (0x7F#7).setWidth 32 <<< 25 ||| 1#32 <<< 24 := by decide
  have data : a.setWidth 32 <<< 17 = (a.setWidth 24 <<< 17).setWidth 32 <<< 0 := by
    apply BitVec.eq_of_toNat_eq
    simp only [BitVec.toNat_shiftLeft, BitVec.toNat_setWidth, Nat.shiftLeft_eq]
    omega
  rw [burstWord, cmd, sadr, top, data]
  rfl

end specWords

/-! SUPPORT. What the codec commands answer (R102, R104, R106, R108): any agent may issue them, so only
their operands can be refused. -/

section codecExec
variable {a : Agent} {s : State} {address value startAddress rx0 rx1 rx2 rx3 : Nat}

/-- Every agent may issue the codec's codes (R75). -/
theorem mem_admittedAgents_codec {op : OpCode} (h : op ∈ [0x1#4, 0x2#4, 0x3#4, 0x4#4]) (a : Agent) :
    a ∈ admittedAgents op := by
  simp only [List.mem_cons, List.not_mem_nil, or_false] at h
  rcases h with rfl | rfl | rfl | rfl <;> cases a <;> decide

theorem exec_codecWrite (ha : address < 2 ^ 7) (hv : value < 2 ^ 24) :
    exec (.codecWrite a address value) s = finish (.codecWrite a address value)
      (.tx (be4 (writeWord s.cfg.layout (BitVec.ofNat 7 address) (BitVec.ofNat 24 value)))) s :=
  attempt_pass (by simpa [mem_admittedAgents_codec] using ⟨ha, hv⟩)

theorem exec_codecReadReq (ha : address < 2 ^ 7) :
    exec (.codecReadReq a address) s = finish (.codecReadReq a address)
      (.tx (be4 (readRequestWord s.cfg.layout (BitVec.ofNat 7 address)))) s :=
  attempt_pass (by simpa [mem_admittedAgents_codec] using ha)

theorem exec_codecReadResp (h : ∀ v ∈ [rx0, rx1, rx2, rx3], v < 2 ^ 8) :
    exec (.codecReadResp a rx0 rx1 rx2 rx3) s = finish (.codecReadResp a rx0 rx1 rx2 rx3)
      (.value (responseData s.cfg.layout
        (unbe4 (BitVec.ofNat 8 rx0) (BitVec.ofNat 8 rx1) (BitVec.ofNat 8 rx2) (BitVec.ofNat 8 rx3)))) s :=
  attempt_pass (by simpa [mem_admittedAgents_codec] using h)

theorem exec_codecBurstReq (ha : startAddress < 2 ^ 7) :
    exec (.codecBurstReq a startAddress) s = finish (.codecBurstReq a startAddress)
      (.tx (be4 (burstWord s.cfg (BitVec.ofNat 7 startAddress)))) s :=
  attempt_pass (by simpa [mem_admittedAgents_codec] using ha)

/-- A codec command whose operands are refused ends with the fault of the first that is (R203, R211). -/
theorem exec_of_operand_fault {i : Instr} {op : OpCode} {f : Fault} {operandChecks : List (Option Fault)}
    (checks : checksOf s i = wrongAgent op a :: operandChecks) (h : op ∈ [0x1#4, 0x2#4, 0x3#4, 0x4#4])
    (fails : operandChecks.findSome? id = some f) : exec i s = .next (s.reply i (.fault f)) :=
  exec_of_check (by rw [checks, wrongAgent_eq_none.mpr (mem_admittedAgents_codec h a)]; exact fails)

end codecExec

/-- Settles O5: a write word is fixed by its fields, and every word with the write bit set is one. -/
theorem codecWriteLaws : Obligations.CodecWriteLaws := by
  refine ⟨fun a a' v v' h => ?_, fun bytes => ⟨?_, ?_⟩, fun g s a v b0 b1 b2 b3 hl hb => ?_⟩
  · have words := be4_injective h
    exact ⟨by rw [← writeWord_address specLayout_wf a v, words, writeWord_address specLayout_wf],
      by rw [← responseData_writeWord specLayout_wf a v, words, responseData_writeWord specLayout_wf]⟩
  · rintro ⟨a, v, rfl⟩
    exact ⟨_, rfl, writeWord_writeBit specLayout_wf a v⟩
  · rintro ⟨w, rfl, hw⟩
    exact ⟨_, _, congrArg be4 (writeWord_of_fields hw).symm⟩
  · have word := unbe4_of_be4_eq hb
    refine ⟨word ▸ writeWord_address specLayout_wf a v, ?_⟩
    rw [exec_codecReadResp (by simpa using ⟨b0.isLt, b1.isLt, b2.isLt, b3.isLt⟩), hl]
    simp only [BitVec.ofNat_toNat, BitVec.setWidth_eq, word, responseData_writeWord specLayout_wf]
    rfl

/-- Settles O7: a read-request word is fixed by its address, the words with nothing below it are all of
them, and the write bit tells them from write words, of which the burst requests are some. -/
theorem codecReadRequestLaws : Obligations.CodecReadRequestLaws := by
  refine ⟨fun a a' h => ?_, fun bytes => ⟨?_, ?_⟩, readRequestWord_ne_writeWord,
    fun c a b cmd sadr => ?_⟩
  · rw [← readRequestWord_address specLayout_wf a, be4_injective h, readRequestWord_address specLayout_wf]
  · rintro ⟨a, rfl⟩
    exact ⟨_, rfl, extractLsb'_shiftLeft_apart a (.inr (by decide))⟩
  · rintro ⟨w, rfl, hw⟩
    exact ⟨_, congrArg be4 (readRequestWord_of_address hw).symm⟩
  · rw [burstWord_eq_writeWord cmd sadr]
    exact readRequestWord_ne_writeWord _ _ _

/-- Settles O8: every value is the data of a write word, and a burst request is one. -/
theorem codecReadResponseLaws : Obligations.CodecReadResponseLaws := by
  refine ⟨fun v => ?_, fun b0 b0' b1 b2 b3 => ?_, responseData_writeWord specLayout_wf,
    fun c a cmd sadr => ?_⟩
  · have word : unbe4 _ _ _ _ = writeWord Layout.spec 0#7 v := unbe4_of_be4_eq rfl
    exact ⟨_, _, _, _, word ▸ responseData_writeWord specLayout_wf 0#7 v⟩
  · rw [responseData_unbe4, responseData_unbe4]
  · rw [burstWord_eq_writeWord cmd sadr, responseData_writeWord specLayout_wf]

/-- Settles O9: the word's two fields read back, and nothing stands below them. -/
theorem codecBurstRequestLaws : Obligations.CodecBurstRequestLaws := by
  intro c cmd sadr
  have inside : c.sadrPos + 7 ≤ 24 := by omega
  refine ⟨fun a a' h => ?_, fun a => ⟨?_, ?_⟩⟩
  · rw [← burstWord_startAddress (a := a) inside, be4_injective h, burstWord_startAddress inside]
  · exact congrArg some ((burstWord_command inside).trans cmd)
  · exact sadr ▸ burstWord_below (by omega)

/-- Settles O1: operands in range keep their values when they are widened to the word. -/
theorem codecWriteSendsItsWord : Obligations.CodecWriteSendsItsWord := by
  intro a address value s hl i w
  refine ⟨rfl, fun ha hv => ?_, fun h => ?_⟩
  · have word : writeWord s.cfg.layout (BitVec.ofNat 7 address) (BitVec.ofNat 24 value) = w := by
      rw [hl, writeWord, BitVec.setWidth_ofNat_of_le_of_lt (by decide) ha,
        BitVec.setWidth_ofNat_of_le_of_lt (by decide) hv]
      exact congrArg _ (BitVec.shiftLeft_zero _)
    rw [exec_codecWrite ha hv, word]
    rfl
  · by_cases ha : address < 2 ^ 7
    · have hv : ¬ value < 2 ^ 24 := fun hv => h ⟨ha, hv⟩
      exact ⟨1, exec_of_operand_fault rfl (by decide) (by
        simp [outOfRange_eq_none.mpr ha, outOfRange_eq_some hv])⟩
    · exact ⟨0, exec_of_operand_fault rfl (by decide) (by simp [outOfRange_eq_some ha])⟩

/-- Settles O2: an address in range keeps its value when it is widened to the word. -/
theorem codecReadRequestSendsItsWord : Obligations.CodecReadRequestSendsItsWord := by
  intro a address s hl i w
  refine ⟨rfl, fun ha => ?_, fun ha => ?_⟩
  · have word : readRequestWord s.cfg.layout (BitVec.ofNat 7 address) = w := by
      rw [hl, readRequestWord, BitVec.setWidth_ofNat_of_le_of_lt (by decide) ha]
      rfl
    rw [exec_codecReadReq ha, word]
    rfl
  · exact ⟨0, exec_of_operand_fault rfl (by decide) (by simp [outOfRange_eq_some ha])⟩

/-- Settles O3: the data of the received bytes is a number in which the first has no part. -/
theorem codecReadResponseTakesItsData : Obligations.CodecReadResponseTakesItsData := by
  intro a rx0 rx1 rx2 rx3 s hl i
  refine ⟨rfl, fun h => ?_, fun h => ?_⟩
  · have byte {v : Nat} (hv : v ∈ [rx0, rx1, rx2, rx3]) : (BitVec.ofNat 8 v).toNat = v :=
      Nat.mod_eq_of_lt (h v hv)
    rw [exec_codecReadResp h, hl, responseData_unbe4, byte (by simp), byte (by simp), byte (by simp)]
    rfl
  · exact ⟨0, exec_of_operand_fault rfl (by decide) (by simp [anyOutOfRange_eq_some h])⟩

/-- Settles O4: the command byte and the widened start address are the two parts of the word. -/
theorem codecBurstRequestSendsItsWord : Obligations.CodecBurstRequestSendsItsWord := by
  intro a startAddress s cmd sadr i w
  refine ⟨rfl, fun ha => ?_, fun ha => ?_⟩
  · have word : burstWord s.cfg (BitVec.ofNat 7 startAddress) = w := by
      rw [burstWord, cmd, sadr, BitVec.setWidth_ofNat_of_le_of_lt (by decide) ha]
      rfl
    rw [exec_codecBurstReq ha, word]
    rfl
  · exact ⟨0, exec_of_operand_fault rfl (by decide) (by simp [outOfRange_eq_some ha])⟩

/-- Settles O11: the burst-request word is the write word of the value, so both send its bytes. -/
theorem burstRequestCollidesWithWriteTo7F : Obligations.BurstRequestCollidesWithWriteTo7F := by
  intro a startAddress s hl cmd sadr ha
  have value : (BitVec.ofNat 7 startAddress).setWidth 24 <<< 17 = BitVec.ofNat 24 (startAddress * 2 ^ 17) := by
    rw [BitVec.setWidth_ofNat_of_le_of_lt (by decide) ha]
    apply BitVec.eq_of_toNat_eq
    simp [Nat.shiftLeft_eq]
  have words := burstWord_eq_writeWord cmd sadr (BitVec.ofNat 7 startAddress)
  refine ⟨be4 (burstWord s.cfg (BitVec.ofNat 7 startAddress)), ?_, exec_codecBurstReq ha, ?_⟩
  · exact congrArg some ((burstWord_command (by omega)).trans cmd)
  · rw [words, value, ← hl]
    exact exec_codecWrite (by decide) (by omega)

end Sys2Proof.Machine

/-! SUPPORT. The samples of a triplet in numbers (R131): a 12-bit value across one and a half bytes. `PACK3`
and `UNPACK3` undo each other because both split the same 24 bits, at 16 and 8 or at 12 (R132). -/

namespace Sys2Proof.Machine

section triplet
variable (b0 b1 b2 : Byte) (A B : BitVec 12)

theorem toNat_sampleA : (sampleA b0 b1).toNat = b0.toNat * 2 ^ 4 + b1.toNat / 2 ^ 4 := by
  rw [sampleA, BitVec.toNat_setWidth, toNat_append_eq_mul_add, BitVec.extractLsb'_toNat,
    Nat.shiftRight_eq_div_pow]
  omega

theorem toNat_sampleB : (sampleB b1 b2).toNat = b1.toNat % 2 ^ 4 * 2 ^ 8 + b2.toNat := by
  rw [sampleB, BitVec.toNat_setWidth, toNat_append_eq_mul_add, BitVec.extractLsb'_toNat,
    Nat.shiftRight_zero]
  omega

theorem sampleA_le : (sampleA b0 b1).toNat ≤ 0xFFF := by
  rw [toNat_sampleA]
  omega

theorem sampleB_le : (sampleB b1 b2).toNat ≤ 0xFFF := by
  rw [toNat_sampleB]
  omega

theorem toNat_pack3_fst : (pack3 A B).1.toNat = A.toNat / 2 ^ 4 := by
  rw [pack3, BitVec.extractLsb'_toNat, Nat.shiftRight_eq_div_pow]
  omega

theorem toNat_pack3_snd : (pack3 A B).2.1.toNat = A.toNat % 2 ^ 4 * 2 ^ 4 + B.toNat / 2 ^ 8 := by
  rw [pack3, toNat_append_eq_mul_add, BitVec.extractLsb'_toNat, BitVec.extractLsb'_toNat,
    Nat.shiftRight_zero, Nat.shiftRight_eq_div_pow]
  omega

theorem toNat_pack3_thd : (pack3 A B).2.2.toNat = B.toNat % 2 ^ 8 := by
  rw [pack3, BitVec.extractLsb'_toNat, Nat.shiftRight_zero]

theorem sampleA_pack3 : sampleA (pack3 A B).1 (pack3 A B).2.1 = A.setWidth 16 := by
  apply BitVec.eq_of_toNat_eq
  rw [toNat_sampleA, toNat_pack3_fst, toNat_pack3_snd, BitVec.toNat_setWidth]
  omega

theorem sampleB_pack3 : sampleB (pack3 A B).2.1 (pack3 A B).2.2 = B.setWidth 16 := by
  apply BitVec.eq_of_toNat_eq
  rw [toNat_sampleB, toNat_pack3_snd, toNat_pack3_thd, BitVec.toNat_setWidth]
  omega

theorem pack3_samples :
    pack3 ((sampleA b0 b1).setWidth 12) ((sampleB b1 b2).setWidth 12) = (b0, b1, b2) := by
  refine Prod.ext ?_ (Prod.ext ?_ ?_) <;> apply BitVec.eq_of_toNat_eq <;> dsimp only
  · rw [toNat_pack3_fst, BitVec.toNat_setWidth, toNat_sampleA]
    omega
  · rw [toNat_pack3_snd, BitVec.toNat_setWidth, BitVec.toNat_setWidth, toNat_sampleA, toNat_sampleB]
    omega
  · rw [toNat_pack3_thd, BitVec.toNat_setWidth, toNat_sampleB]
    omega

end triplet

/-- Settles O13: both undo the other in numbers. -/
theorem unpackTripletIsABijection : Obligations.UnpackTripletIsABijection := by
  refine ⟨fun b0 b1 b2 => ⟨sampleA_le b0 b1, sampleB_le b1 b2, pack3_samples b0 b1 b2⟩,
    fun A B b0 b1 b2 h => ?_⟩
  have hA := sampleA_pack3 A B
  have hB := sampleB_pack3 A B
  rw [h] at hA hB
  exact ⟨hA, hB⟩

/-! SUPPORT. A run of triplets (R133, R134): each triplet gives two samples, and the rest of the run is
unpacked in the same way. -/

section unpackRun
variable {x : List Byte}

/-- The remainder that `unpackTriplets` drops is shorter than a triplet. -/
theorem length_lt_three_of_no_triplet (short : ∀ b0 b1 b2 rest, x = b0 :: b1 :: b2 :: rest → False) :
    x.length < 3 := by
  match x, short with
  | [], _ | [_], _ | [_, _], _ => simp
  | b0 :: b1 :: b2 :: rest, short => exact absurd rfl (short b0 b1 b2 rest)

theorem unpackTriplets_length (x : List Byte) : (unpackTriplets x).length = 2 * (x.length / 3) := by
  fun_induction unpackTriplets x with
  | case1 b0 b1 b2 rest ih =>
    simp only [List.length_cons, ih]
    omega
  | case2 x short => rw [Nat.div_eq_of_lt (length_lt_three_of_no_triplet short), List.length_nil]

/-- A boundary between triplets is one between their samples. -/
theorem unpackTriplets_append (h : x.length % 3 = 0) (y : List Byte) :
    unpackTriplets (x ++ y) = unpackTriplets x ++ unpackTriplets y := by
  fun_induction unpackTriplets x with
  | case1 b0 b1 b2 rest ih =>
    have hrest : rest.length % 3 = 0 := by
      simp only [List.length_cons] at h
      omega
    simp [ih hrest]
  | case2 x short =>
    have empty : x = [] := by
      have := length_lt_three_of_no_triplet short
      exact List.eq_nil_of_length_eq_zero (by omega)
    subst empty
    rfl

theorem le_of_mem_unpackTriplets {v : Sample} (hv : v ∈ unpackTriplets x) : v.toNat ≤ 0xFFF := by
  fun_induction unpackTriplets x with
  | case1 b0 b1 b2 rest ih =>
    simp only [List.mem_cons] at hv
    rcases hv with rfl | rfl | hv
    · exact sampleA_le b0 b1
    · exact sampleB_le b1 b2
    · exact ih hv
  | case2 => exact nomatch hv

/-- Triplet `k` gives the samples `2k` and `2k + 1` (R133). -/
theorem unpackTriplets_getElem? {k : Nat} {b0 b1 b2 : Byte} (h0 : x[3 * k]? = some b0)
    (h1 : x[3 * k + 1]? = some b1) (h2 : x[3 * k + 2]? = some b2) :
    (unpackTriplets x)[2 * k]? = some (sampleA b0 b1) ∧
      (unpackTriplets x)[2 * k + 1]? = some (sampleB b1 b2) := by
  fun_induction unpackTriplets x generalizing k with
  | case1 c0 c1 c2 rest ih =>
    cases k with
    | zero =>
      cases h0
      cases h1
      cases h2
      exact ⟨rfl, rfl⟩
    | succ k => exact ih h0 h1 h2
  | case2 x short =>
    have inside : 3 * k + 2 < x.length := (List.getElem?_eq_some_iff.mp h2).1
    have := length_lt_three_of_no_triplet short
    omega

theorem toBytes_getElem? {vs : List Nat} {k v : Nat} (h : vs[k]? = some v) :
    (toBytes vs)[k]? = some (BitVec.ofNat 8 v) := by
  rw [toBytes, List.getElem?_map, h]
  rfl

/-- Dropping the header commutes with reading the operand as bytes (R135). -/
theorem slicePayload_toBytes (slice : List Nat) : slicePayload (toBytes slice) = toBytes (slice.drop 4) :=
  List.map_drop.symm

end unpackRun

/-- Settles O15: one lemma for each law. -/
theorem unpackRunLaws : Obligations.UnpackRunLaws := by
  intro x y hx _
  refine ⟨?_, unpackTriplets_append hx y, fun _ => le_of_mem_unpackTriplets⟩
  rw [unpackTriplets_length]
  omega

/-! SUPPORT. What the unpacker's commands answer (R131, R133, R135): any agent may issue them, so only their
operands can be refused. -/

section unpackerExec
variable {a : Agent} {s : State} {b0 b1 b2 : Nat} {bytes slice : List Nat}

/-- Every agent may issue the unpacker's codes (R75). -/
theorem mem_admittedAgents_unpacker {op : OpCode} (h : op ∈ [0x5#4, 0x6#4, 0x7#4]) (a : Agent) :
    a ∈ admittedAgents op := by
  simp only [List.mem_cons, List.not_mem_nil, or_false] at h
  rcases h with rfl | rfl | rfl <;> cases a <;> decide

/-- Bytes in range keep their numbers in a sample. -/
theorem sampleA_ofNat (h0 : b0 < 2 ^ 8) (h1 : b1 < 2 ^ 8) :
    sampleA (BitVec.ofNat 8 b0) (BitVec.ofNat 8 b1) = BitVec.ofNat 16 (b0 * 2 ^ 4 + b1 / 2 ^ 4) := by
  apply BitVec.eq_of_toNat_eq
  rw [toNat_sampleA, BitVec.toNat_ofNat, BitVec.toNat_ofNat, BitVec.toNat_ofNat]
  omega

theorem sampleB_ofNat (h2 : b2 < 2 ^ 8) :
    sampleB (BitVec.ofNat 8 b1) (BitVec.ofNat 8 b2) = BitVec.ofNat 16 (b1 % 2 ^ 4 * 2 ^ 8 + b2) := by
  apply BitVec.eq_of_toNat_eq
  rw [toNat_sampleB, BitVec.toNat_ofNat, BitVec.toNat_ofNat, BitVec.toNat_ofNat]
  omega

theorem exec_unpack3 (h0 : b0 < 2 ^ 8) (h1 : b1 < 2 ^ 8) (h2 : b2 < 2 ^ 8) :
    exec (.unpack3 a b0 b1 b2) s = finish (.unpack3 a b0 b1 b2)
      (.pair (sampleA (BitVec.ofNat 8 b0) (BitVec.ofNat 8 b1))
        (sampleB (BitVec.ofNat 8 b1) (BitVec.ofNat 8 b2))) s :=
  attempt_pass (by simpa [mem_admittedAgents_unpacker] using ⟨h0, h1, h2⟩)

theorem exec_unpackRun (range : ∀ b ∈ bytes, b < 2 ^ 8) (length : bytes.length % 3 = 0) :
    exec (.unpackRun a bytes) s =
      finish (.unpackRun a bytes) (.samples (unpackTriplets (toBytes bytes))) s :=
  attempt_pass (by simpa [mem_admittedAgents_unpacker] using ⟨range, length⟩)

theorem exec_unpackSlice (range : ∀ b ∈ slice, b < 2 ^ 8) (header : 4 ≤ slice.length)
    (length : (slice.length - 4) % 3 = 0) :
    exec (.unpackSlice a slice) s =
      finish (.unpackSlice a slice) (.samples (unpackTriplets (toBytes (slice.drop 4)))) s := by
  rw [← slicePayload_toBytes]
  exact attempt_pass (by simpa [mem_admittedAgents_unpacker] using ⟨range, header, length⟩)

/-- A command of an admitted agent ends with the fault of the first check after the agent's that fails
(R211). -/
theorem exec_of_admitted_fault {i : Instr} {op : OpCode} {f : Fault} {operandChecks : List (Option Fault)}
    (checks : checksOf s i = wrongAgent op a :: operandChecks) (admitted : a ∈ admittedAgents op)
    (fails : operandChecks.findSome? id = some f) : exec i s = .next (s.reply i (.fault f)) :=
  exec_of_check (by rw [checks, wrongAgent_eq_none.mpr admitted]; exact fails)

end unpackerExec

/-- Settles O14: the samples are those of the unpacked list, whose bytes keep their numbers. -/
theorem unpackRunUnpacksInOrder : Obligations.UnpackRunUnpacksInOrder := by
  intro a bytes s i
  refine ⟨rfl, fun range length => ⟨_, exec_unpackRun range length, ?_, ?_⟩, fun range length => ?_,
    fun range => ⟨0, ?_⟩⟩
  · rw [unpackTriplets_length, toBytes_length]
    omega
  · intro k b0 b1 b2 h0 h1 h2
    have in_range {j b : Nat} (h : bytes[j]? = some b) : b < 2 ^ 8 := range b (List.mem_of_getElem? h)
    rw [← sampleA_ofNat (in_range h0) (in_range h1), ← sampleB_ofNat (in_range h2)]
    exact unpackTriplets_getElem? (toBytes_getElem? h0) (toBytes_getElem? h1) (toBytes_getElem? h2)
  · have illegal : (bytes.length % 3 == 0) = false := beq_false_of_ne length
    exact exec_of_admitted_fault rfl (mem_admittedAgents_unpacker (by decide) a) (by
      simp [anyOutOfRange_eq_none.mpr range, badLength_eq_some illegal])
  · exact exec_of_admitted_fault rfl (mem_admittedAgents_unpacker (by decide) a)
      (by simp [anyOutOfRange_eq_some range])

/-- Settles O16: past its header a slice is a run. -/
theorem unpackSliceSkipsTheHeader : Obligations.UnpackSliceSkipsTheHeader := by
  intro a slice s i
  refine ⟨rfl, fun range header length => ?_, fun range length => ?_, fun range => ⟨0, ?_⟩⟩
  · have payloadRange : ∀ b ∈ slice.drop 4, b < 2 ^ 8 := fun b hb => range b (List.mem_of_mem_drop hb)
    have payloadLength : (slice.drop 4).length % 3 = 0 := by rwa [List.length_drop]
    refine ⟨_, exec_unpackSlice range header length, exec_unpackRun payloadRange payloadLength, ?_⟩
    rw [unpackTriplets_length, toBytes_length, List.length_drop]
    omega
  · have illegal : (decide (4 ≤ slice.length) && (slice.length - 4) % 3 == 0) = false :=
      Bool.and_eq_false_iff.mpr
        (length.imp (fun short => decide_eq_false (Nat.not_le.mpr short)) beq_false_of_ne)
    exact exec_of_admitted_fault rfl (mem_admittedAgents_unpacker (by decide) a) (by
      simp [anyOutOfRange_eq_none.mpr range, badLength_eq_some illegal])
  · exact exec_of_admitted_fault rfl (mem_admittedAgents_unpacker (by decide) a)
      (by simp [anyOutOfRange_eq_some range])

/-- Settles O12: bytes in range keep their numbers, and the first that is not is the one refused. -/
theorem unpackTripletGivesItsSamples : Obligations.UnpackTripletGivesItsSamples := by
  intro a b0 b1 b2 s i
  refine ⟨rfl, fun h0 h1 h2 => ?_, fun h => ?_⟩
  · rw [exec_unpack3 h0 h1 h2, sampleA_ofNat h0 h1, sampleB_ofNat h2]
    rfl
  · by_cases h0 : b0 < 2 ^ 8
    · by_cases h1 : b1 < 2 ^ 8
      · have h2 : ¬ b2 < 2 ^ 8 := fun h2 => h ⟨h0, h1, h2⟩
        exact ⟨2, exec_of_admitted_fault rfl (mem_admittedAgents_unpacker (by decide) a) (by
          simp [outOfRange_eq_none.mpr h0, outOfRange_eq_none.mpr h1, outOfRange_eq_some h2])⟩
      · exact ⟨1, exec_of_admitted_fault rfl (mem_admittedAgents_unpacker (by decide) a) (by
          simp [outOfRange_eq_none.mpr h0, outOfRange_eq_some h1])⟩
    · exact ⟨0, exec_of_admitted_fault rfl (mem_admittedAgents_unpacker (by decide) a)
      (by simp [outOfRange_eq_some h0])⟩

end Sys2Proof.Machine

/-! SUPPORT. The generator's history (R151, R154): a completed command either starts it anew, draws one more
value, or leaves it as it is. -/

namespace Sys2Proof.Machine

section patternHistory
variable {s t : State} {i : Instr} {r : Reply}

/-- A completed seeding leaves no value drawn since. -/
theorem State.drawnValues_of_reseeds (log : t.log = ⟨i, r⟩ :: s.log) (h : Event.reseeds ⟨i, r⟩ = true) :
    t.drawnValues = [] := by
  simp [State.drawnValues, log, h]

/-- A draw puts its value behind those drawn before. -/
theorem State.drawnValues_of_draw {v : Sample} (log : t.log = ⟨i, r⟩ :: s.log)
    (reseeds : Event.reseeds ⟨i, r⟩ = false) (drawn : Event.drawnValue ⟨i, r⟩ = some v) :
    t.drawnValues = s.drawnValues ++ [v] := by
  simp [State.drawnValues, log, reseeds, drawn]

/-- Any other completed command leaves the drawn values as they are. -/
theorem State.drawnValues_of_other (log : t.log = ⟨i, r⟩ :: s.log)
    (reseeds : Event.reseeds ⟨i, r⟩ = false) (drawn : Event.drawnValue ⟨i, r⟩ = none) :
    t.drawnValues = s.drawnValues := by
  simp [State.drawnValues, log, reseeds, drawn]

/-- The history reads the configuration, the register and the drawn values, and no other element. -/
theorem State.PatternHistory.of_eq (h : s.PatternHistory) (cfg : t.cfg = s.cfg) (lfsr : t.lfsr = s.lfsr)
    (drawn : t.drawnValues = s.drawnValues) : t.PatternHistory := by
  constructor <;> simp only [cfg, lfsr, drawn]
  exacts [h.values, h.register]

/-- Of the log, the history reads the drawn values only: a completed command that neither seeds nor draws
keeps it. -/
theorem State.PatternHistory.other (h : s.PatternHistory) (cfg : t.cfg = s.cfg) (lfsr : t.lfsr = s.lfsr)
    (log : t.log = ⟨i, r⟩ :: s.log) (reseeds : Event.reseeds ⟨i, r⟩ = false)
    (drawn : Event.drawnValue ⟨i, r⟩ = none) : t.PatternHistory :=
  h.of_eq cfg lfsr (State.drawnValues_of_other log reseeds drawn)

/-- A seeding starts the history: nothing is drawn and the register holds the seed (R150, R230). -/
theorem State.PatternHistory.start (lfsr : t.lfsr = BitVec.ofNat 16 t.cfg.lfsrSeed)
    (drawn : t.drawnValues = []) : t.PatternHistory := by
  constructor
  · rw [drawn]
    rfl
  · rw [drawn]
    exact lfsr

/-- A draw takes the register, which holds the next value, and leaves that value's successor. -/
theorem State.PatternHistory.draw (h : s.PatternHistory) (cfg : t.cfg = s.cfg)
    (lfsr : t.lfsr = lfsrStep s.cfg.lfsrW s.lfsr) (drawn : t.drawnValues = s.drawnValues ++ [s.lfsr]) :
    t.PatternHistory := by
  have length : t.drawnValues.length = s.drawnValues.length + 1 := by simp [drawn]
  constructor
  · rw [length, List.range_succ, List.map_append, List.map_singleton, cfg, ← h.values, ← h.register, drawn]
  · rw [length, Function.iterate_succ_apply', cfg, ← h.register, lfsr]

/-- Every way a command can leave the state keeps the history of a session, and a reset starts one. -/
theorem ExecStep.patternHistory (h : ExecStep s i t) (hs : s.init = true → s.PatternHistory)
    (init : t.init = true) : t.PatternHistory := by
  cases h with
  | fault _ f =>
    have calm := Event.calm_of_fault i f
    exact (hs init).other rfl rfl rfl calm.reseeds calm.drawnValue
  | read _ _ calm => exact (hs init).other rfl rfl rfl calm.reseeds calm.drawnValue
  | reset _ => exact .start rfl (State.drawnValues_of_reseeds rfl rfl)
  | reseed _ _ _ => exact .start rfl (State.drawnValues_of_reseeds rfl rfl)
  | draw _ => exact (hs init).draw rfl rfl (State.drawnValues_of_draw rfl rfl rfl)
  | held _ _ _ => exact (hs init).of_eq rfl rfl rfl
  | drop | push | pop | lifted => exact (hs init).other rfl rfl rfl rfl rfl

/-- A wait that is asked again neither seeds nor draws. -/
theorem State.PatternHistory.holdUntil {a : Agent} {n : Nat} (hs : s.PatternHistory)
    (h : holdUntil a n s = .next t) : t.PatternHistory := by
  rcases holdUntil_cases h with ⟨-, rfl⟩ | ⟨-, rfl⟩
  · exact hs.other rfl rfl rfl rfl rfl
  · exact hs.of_eq rfl rfl rfl

theorem holdUntil_init {a : Agent} {n : Nat} (h : holdUntil a n s = .next t) : t.init = s.init := by
  rcases holdUntil_cases h with ⟨-, rfl⟩ | ⟨-, rfl⟩ <;> rfl

theorem StepCase.patternHistory (h : StepCase s t) (hs : s.init = true → s.PatternHistory)
    (init : t.init = true) : t.PatternHistory := by
  cases h with
  | idle _ => exact hs init
  | silent _ _ _ => exact (hs init).of_eq rfl rfl rfl
  | poll n rest _ _ _ turn =>
    have init' : s.init = true := (holdUntil_init turn).symm.trans init
    exact State.PatternHistory.holdUntil (s := { s with turns := rest })
      ((hs init').of_eq rfl rfl rfl) turn
  | issue a rest _ cs _ _ _ _ _ _ run =>
    exact (exec_cases run).patternHistory (fun hi => (hs hi).of_eq rfl rfl rfl) init

end patternHistory

/-- Settles O53: each case of a step starts the history, draws its next value, or leaves it. -/
theorem stepKeepsThePatternHistory : Obligations.StepKeepsThePatternHistory := by
  intro s t hs h
  obtain ⟨-, hcase⟩ := step_cases h
  exact hcase.patternHistory hs

end Sys2Proof.Machine

/-! SUPPORT. `STEP` bit by bit and in numbers (R152), for a register of `LFSR_W` bits. -/

namespace Sys2Proof.Machine

section lfsrBits
variable {width k : Nat} {u v : Sample}

theorem getLsbD_lfsrStep_below (hk : k < width - 1) :
    (lfsrStep width v).getLsbD k = v.getLsbD (k + 1) := by
  simp [lfsrStep, hk, Nat.add_comm]

theorem getLsbD_lfsrStep_top (hw : width = 12 ∨ width = 16) (hv : v.toNat < 2 ^ width) :
    (lfsrStep width v).getLsbD (width - 1) = lfsrFeedback v := by
  have above : v.getLsbD width = false := Nat.testBit_lt_two_pow hv
  rcases hw with rfl | rfl <;> simp_all [lfsrStep]

/-- The feedback bit is the parity of the taps. -/
theorem toNat_lfsrFeedback (v : Sample) : (lfsrFeedback v).toNat =
    ((v.getLsbD 0).toNat + (v.getLsbD 3).toNat + (v.getLsbD 9).toNat + (v.getLsbD 10).toNat) % 2 := by
  have parity : ∀ a b c d : Bool,
      (((a ^^ b) ^^ c) ^^ d).toNat = (a.toNat + b.toNat + c.toNat + d.toNat) % 2 := by decide
  exact parity _ _ _ _

/-- Every bit but bit 0 stays; bit 0 is the XOR of the feedback bit and three bits that stay. -/
theorem lfsrStep_injective (hw : width = 12 ∨ width = 16) (hu : u.toNat < 2 ^ width)
    (hv : v.toNat < 2 ^ width) (h : lfsrStep width u = lfsrStep width v) : u = v := by
  have stays {k : Nat} (hk : k < width - 1) : u.getLsbD (k + 1) = v.getLsbD (k + 1) := by
    rw [← getLsbD_lfsrStep_below hk, h, getLsbD_lfsrStep_below hk]
  have feedback : lfsrFeedback u = lfsrFeedback v := by
    rw [← getLsbD_lfsrStep_top hw hu, h, getLsbD_lfsrStep_top hw hv]
  have lowest : u.getLsbD 0 = v.getLsbD 0 := by
    rw [lfsrFeedback, lfsrFeedback, stays (k := 2) (by omega), stays (k := 8) (by omega),
      stays (k := 9) (by omega)] at feedback
    simpa only [Bool.xor_left_inj] using feedback
  refine BitVec.eq_of_getLsbD_eq fun k _ => ?_
  rcases k with _ | k
  · exact lowest
  · by_cases hk : k < width - 1
    · exact stays hk
    · have above : 2 ^ width ≤ 2 ^ (k + 1) := Nat.pow_le_pow_right (by decide) (by omega)
      exact (Nat.testBit_lt_two_pow (hu.trans_le above)).trans
        (Nat.testBit_lt_two_pow (hv.trans_le above)).symm

end lfsrBits

/-- Settles O19: the halved register lies below the top bit, so the feedback bit is added to it. -/
theorem lfsrUpdateShiftsAndTaps : Obligations.LfsrUpdateShiftsAndTaps := by
  intro width v hw hv
  have half : v.toNat / 2 < 2 ^ (width - 1) := by rcases hw with rfl | rfl <;> omega
  rw [toNat_lfsrStep hw, Nat.lor_comm, Nat.mul_comm, ← Nat.two_pow_add_eq_or_of_lt half,
    toNat_lfsrFeedback, Nat.add_comm, Nat.mul_comm]

section lfsrNat
variable {width : Nat} {v : Sample}

/-- `STEP` as arithmetic on numbers: the sum has the parity of the four taps. -/
def lfsrNat (width n : Nat) : Nat :=
  n / 2 + (n + n / 8 + n / 512 + n / 1024) % 2 * 2 ^ (width - 1)

theorem toNat_getLsbD (v : Sample) (k : Nat) : (v.getLsbD k).toNat = v.toNat / 2 ^ k % 2 :=
  Nat.toNat_testBit v.toNat k

theorem toNat_lfsrStep_eq_lfsrNat (hw : width = 12 ∨ width = 16) (hv : v.toNat < 2 ^ width) :
    (lfsrStep width v).toNat = lfsrNat width v.toNat := by
  have parity : (v.toNat % 2 + v.toNat / 8 % 2 + v.toNat / 512 % 2 + v.toNat / 1024 % 2) % 2 =
      (v.toNat + v.toNat / 8 + v.toNat / 512 + v.toNat / 1024) % 2 := by omega
  rw [lfsrUpdateShiftsAndTaps width v hw hv, lfsrNat, ← parity]
  simp only [toNat_getLsbD, pow_zero, Nat.div_one, Nat.reducePow]

/-- A run of updates in numbers. -/
theorem toNat_iterate_lfsrStep (hw : width = 12 ∨ width = 16) (hv : v.toNat < 2 ^ width) (n : Nat) :
    ((lfsrStep width)^[n] v).toNat = (lfsrNat width)^[n] v.toNat := by
  induction n generalizing v with
  | zero => rfl
  | succ n ih =>
    rw [Function.iterate_succ_apply, Function.iterate_succ_apply, ih (lfsrStep_lt hw hv),
      toNat_lfsrStep_eq_lfsrNat hw hv]

end lfsrNat

/-- Settles O21: an injective map of a finite set into itself reaches all of it. -/
theorem lfsrUpdateIsABijection : Obligations.LfsrUpdateIsABijection := by
  intro width hw
  have maps : Set.MapsTo (lfsrStep width) {v | v.toNat < 2 ^ width} {v | v.toNat < 2 ^ width} :=
    fun _ => lfsrStep_lt hw
  have injOn : Set.InjOn (lfsrStep width) {v | v.toNat < 2 ^ width} :=
    fun _ hu _ hv => lfsrStep_injective hw hu hv
  have bijOn := ((Set.toFinite _).injOn_iff_bijOn_of_mapsTo maps).mp injOn
  refine ⟨?_, maps, fun _ _ hu hv => injOn hu hv, bijOn.surjOn⟩
  rcases hw with rfl | rfl <;> rfl

/-! SUPPORT. What the generator's commands answer (R150, R151): the consumer alone draws, the producer alone
may not reseed, and both need a session. -/

section lfsrExec
variable {a : Agent} {s : State}

theorem mem_admittedAgents_lfsrReseed : a ∈ admittedAgents 0x8#4 ↔ a ≠ .producer := by
  cases a <;> decide

theorem mem_admittedAgents_lfsrNext : a ∈ admittedAgents 0x9#4 ↔ a = .consumer := by
  cases a <;> decide

theorem exec_lfsrReseed (agent : a ≠ .producer) (init : s.init = true) : exec (.lfsrReseed a) s =
    finish (.lfsrReseed a) .none { s with lfsr := BitVec.ofNat 16 s.cfg.lfsrSeed } :=
  attempt_pass (by simpa [mem_admittedAgents_lfsrReseed] using ⟨agent, init⟩)

theorem exec_lfsrNext (init : s.init = true) : exec (.lfsrNext .consumer) s =
    finish (.lfsrNext .consumer) (.pattern s.lfsr) { s with lfsr := lfsrStep s.cfg.lfsrW s.lfsr } :=
  attempt_pass (by simpa [mem_admittedAgents_lfsrNext] using init)

end lfsrExec

/-- Settles O17: the two checks, in the order of R211, and the write. -/
theorem lfsrReseedLoadsTheSeed : Obligations.LfsrReseedLoadsTheSeed := by
  intro a s i
  refine ⟨rfl, fun agent init => exec_lfsrReseed agent init, fun agent init => ?_, fun agent => ?_⟩
  · exact exec_of_admitted_fault rfl (mem_admittedAgents_lfsrReseed.mpr agent)
      (by simp [notReset_eq_some init])
  · have refused : a ∉ admittedAgents 0x8#4 := fun h => mem_admittedAgents_lfsrReseed.mp h agent
    exact exec_of_check (by simp [i, checksOf, wrongAgent_eq_some refused])

/-- Settles O18: the register is `STEP` of the old one, whose bits the laws above give. -/
theorem lfsrNextReturnsThenShifts : Obligations.LfsrNextReturnsThenShifts := by
  intro s
  refine ⟨rfl, fun hs init => ?_, fun init => ?_, fun a agent => ?_⟩
  · obtain ⟨-, -, width, -⟩ := hs.cfg
    have fits : s.lfsr.toNat < 2 ^ s.cfg.lfsrW := hs.shaped.lfsr
    exact ⟨lfsrStep s.cfg.lfsrW s.lfsr, exec_lfsrNext init, fun _ => getLsbD_lfsrStep_below,
      getLsbD_lfsrStep_top width fits, lfsrStep_lt width fits, fits, (hs.session init).lfsr⟩
  · exact exec_of_admitted_fault rfl (mem_admittedAgents_lfsrNext.mpr rfl)
      (by simp [notReset_eq_some init])
  · have refused : a ∉ admittedAgents 0x9#4 := fun h => agent (mem_admittedAgents_lfsrNext.mp h)
    exact exec_of_check (by simp [checksOf, wrongAgent_eq_some refused])

end Sys2Proof.Machine

/-! SUPPORT. The period of a state under `STEP` (R154): it divides `n` and no quotient of `n` by a prime, so it
is `n`. At `LFSR_W = 12` one orbit is run; it holds as many states as there are non-zero values, so every
seed lies on it. -/

namespace Sys2Proof.Machine

open Function

/-- A period of which no quotient by a prime is one is the minimal period. -/
theorem minimalPeriod_eq_of_prime_div {α : Type} {f : α → α} {x : α} {n : Nat} (hn : 0 < n)
    (period : IsPeriodicPt f n x) (least : ∀ p ∈ n.primeFactorsList, ¬ IsPeriodicPt f (n / p) x) :
    minimalPeriod f x = n := by
  obtain ⟨m, hm⟩ := period.minimalPeriod_dvd
  by_contra hne
  have m_ne_one : m ≠ 1 := by
    rintro rfl
    exact hne (by omega)
  obtain ⟨p, prime, k, rfl⟩ := Nat.exists_prime_and_dvd m_ne_one
  have quotient : n = p * (minimalPeriod f x * k) := by rw [hm, Nat.mul_left_comm]
  refine least p ((Nat.mem_primeFactorsList hn.ne').mpr ⟨prime, quotient ▸ Nat.dvd_mul_right ..⟩) ?_
  rw [quotient, Nat.mul_div_cancel_left _ prime.pos]
  exact (isPeriodicPt_minimalPeriod f x).mul_const k

theorem isPeriodicPt_lfsrStep_iff {v : Sample} {width n : Nat} (hw : width = 12 ∨ width = 16)
    (hv : v.toNat < 2 ^ width) :
    IsPeriodicPt (lfsrStep width) n v ↔ (lfsrNat width)^[n] v.toNat = v.toNat := by
  rw [← toNat_iterate_lfsrStep hw hv]
  exact BitVec.toNat_inj.symm

section twelve
variable {seed v : Sample}

/-- The run of R154 (2) from one seed; 4095 = 3 · 3 · 5 · 7 · 13. -/
theorem minimalPeriod_lfsrStep_one : minimalPeriod (lfsrStep 12) 1#16 = 4095 := by
  have periodic (n : Nat) : IsPeriodicPt (lfsrStep 12) n 1#16 ↔ (lfsrNat 12)^[n] 1 = 1 :=
    isPeriodicPt_lfsrStep_iff (.inl rfl) (by decide)
  have primes : Nat.primeFactorsList 4095 = [3, 3, 5, 7, 13] := by simp
  have run : (lfsrNat 12)^[4095] 1 = 1 := by decide +kernel
  have shorter : ∀ p ∈ [3, 3, 5, 7, 13], (lfsrNat 12)^[4095 / p] 1 ≠ 1 := by decide +kernel
  exact minimalPeriod_eq_of_prime_div (by decide) ((periodic _).mpr run)
    fun p hp => (periodic _).not.mpr (shorter p (primes ▸ hp))

/-- The states the generator can be in at `LFSR_W = 12`. -/
def NonZero12 (v : Sample) : Prop := v ≠ 0#16 ∧ v.toNat < 2 ^ 12

theorem NonZero12.iterate (h : NonZero12 v) (n : Nat) : NonZero12 ((lfsrStep 12)^[n] v) := by
  have maps : Set.MapsTo (lfsrStep 12) {u | NonZero12 u} {u | NonZero12 u} :=
    fun _ hu => ⟨lfsrStep_ne_zero (.inl rfl) hu.1, lfsrStep_lt (.inl rfl) hu.2⟩
  exact maps.iterate n h

/-- An orbit of 4095 states leaves out no non-zero value: there are no more of them. -/
theorem NonZero12.exists_iterate_eq (hs : NonZero12 seed) (period : minimalPeriod (lfsrStep 12) seed = 4095)
    (hv : NonZero12 v) : ∃ k, k < 4095 ∧ (lfsrStep 12)^[k] seed = v := by
  have in_range {u : Sample} (hu : NonZero12 u) : u.toNat ∈ Finset.Icc 1 4095 := by
    obtain ⟨ne, lt⟩ := hu
    rw [Finset.mem_Icc]
    bv_omega
  have surjOn : Set.SurjOn (fun k => ((lfsrStep 12)^[k] seed).toNat) (Finset.range 4095)
      (Finset.Icc 1 4095) := by
    refine Finset.surjOn_of_injOn_of_card_le _ (fun k _ => in_range (hs.iterate k)) ?_ (by simp)
    intro j hj k hk h
    rw [Finset.coe_range, ← period] at hj hk
    exact iterate_injOn_Iio_minimalPeriod hj hk (BitVec.eq_of_toNat_eq h)
  obtain ⟨k, hk, h⟩ := surjOn (in_range hv)
  exact ⟨k, Finset.mem_range.mp hk, BitVec.eq_of_toNat_eq h⟩

/-- Every seed lies on the orbit of 1, whose states have one period. -/
theorem NonZero12.minimalPeriod_eq (hs : NonZero12 seed) : minimalPeriod (lfsrStep 12) seed = 4095 := by
  have one : NonZero12 1#16 := ⟨by decide, by decide⟩
  obtain ⟨k, -, rfl⟩ := one.exists_iterate_eq minimalPeriod_lfsrStep_one hs
  have periodic : 1#16 ∈ periodicPts (lfsrStep 12) :=
    minimalPeriod_pos_iff_mem_periodicPts.mp (by rw [minimalPeriod_lfsrStep_one]; decide)
  rw [minimalPeriod_apply_iterate periodic, minimalPeriod_lfsrStep_one]

end twelve

/-- Settles O22: the seed's minimal period is the number of non-zero values. -/
theorem lfsrHasFullPeriodAtTwelve : Obligations.LfsrHasFullPeriodAtTwelve := by
  intro seed ne lt
  have hs : NonZero12 seed := ⟨ne, lt⟩
  have period := hs.minimalPeriod_eq
  refine ⟨?_, fun j k hjk hk h => ?_, fun v hv hlt => hs.exists_iterate_eq period ⟨hv, hlt⟩⟩
  · rw [← period]
    exact iterate_minimalPeriod
  · rw [iterate_eq_iterate_iff_of_lt_minimalPeriod (by omega) (by omega)] at h
    exact hjk.ne h

/-! SUPPORT. At `LFSR_W = 16` (R154 (3)): `STEP` is linear over XOR, and what holds of 1 and is kept by XOR and
by `STEP` holds of every value. So the sum of `p` iterates of `STEP^(255/p)` is 0 everywhere; at a state that
`STEP^(255/p)` fixed, `p` being odd, it would be that state. -/

section sixteen
variable {f g : Sample → Sample} {u v : Sample} {k p : Nat}

/-- A function that is linear over XOR. -/
def XorLinear (f : Sample → Sample) : Prop := ∀ u v, f (u ^^^ v) = f u ^^^ f v

theorem lfsrFeedback_xor (u v : Sample) : lfsrFeedback (u ^^^ v) = (lfsrFeedback u ^^ lfsrFeedback v) := by
  simp only [lfsrFeedback, BitVec.getLsbD_xor, Bool.xor_assoc, Bool.xor_left_comm]

theorem getLsbD_lfsrStep16_below (v : Sample) {k : Nat} (hk : k < 15) :
    (lfsrStep 16 v).getLsbD k = v.getLsbD (k + 1) :=
  getLsbD_lfsrStep_below hk

theorem getLsbD_lfsrStep16_top (v : Sample) : (lfsrStep 16 v).getLsbD 15 = lfsrFeedback v :=
  getLsbD_lfsrStep_top (.inr rfl) v.isLt

/-- The top bit, which `STEP` writes, stands apart from the bits it shifts. -/
theorem eq_of_below_of_top (below : ∀ k, k < 15 → u.getLsbD k = v.getLsbD k)
    (top : u.getLsbD 15 = v.getLsbD 15) : u = v := by
  refine BitVec.eq_of_getLsbD_eq fun k hk => ?_
  rcases Nat.lt_succ_iff_lt_or_eq.mp hk with lt | rfl
  · exact below k lt
  · exact top

theorem xorLinear_lfsrStep : XorLinear (lfsrStep 16) := by
  refine fun u v => eq_of_below_of_top (fun k below => ?_) ?_
  · simp only [BitVec.getLsbD_xor, getLsbD_lfsrStep16_below _ below]
  · simp only [BitVec.getLsbD_xor, getLsbD_lfsrStep16_top, lfsrFeedback_xor]

theorem XorLinear.iterate (hf : XorLinear f) (n : Nat) : XorLinear f^[n] := by
  induction n with
  | zero => exact fun _ _ => rfl
  | succ n ih =>
    intro u v
    simp only [iterate_succ_apply', ih u v, hf _ _]

theorem XorLinear.map_zero (hf : XorLinear f) : f 0#16 = 0#16 := by
  simpa using hf 0#16 0#16

/-- Shifted left, a value comes back from `STEP` up to its top bit. -/
theorem eq_lfsrStep_shiftLeft (v : Sample) :
    v = lfsrStep 16 (v <<< 1) ∨ v = lfsrStep 16 (v <<< 1) ^^^ BitVec.twoPow 16 15 := by
  have below (k : Nat) (hk : k < 15) : v.getLsbD k = (lfsrStep 16 (v <<< 1)).getLsbD k := by
    have inside : k + 1 < 16 := by omega
    rw [getLsbD_lfsrStep16_below _ hk, BitVec.getLsbD_shiftLeft, decide_eq_true inside]
    simp
  by_cases top : v.getLsbD 15 = (lfsrStep 16 (v <<< 1)).getLsbD 15
  · exact .inl (eq_of_below_of_top below top)
  · refine .inr (eq_of_below_of_top (fun k hk => ?_) ?_)
    · simp [below k hk, hk.ne']
    · simpa [Bool.eq_not_iff] using top

/-- The value 1 generates all values under XOR and `STEP`. -/
theorem lfsrStep_induction {P : Sample → Prop} (one : P 1#16) (step : ∀ v, P v → P (lfsrStep 16 v))
    (xor : ∀ u v, P u → P v → P (u ^^^ v)) (v : Sample) : P v := by
  have top : P (BitVec.twoPow 16 15) := step _ one
  have shifted : ∀ (n : Nat) (v : Sample), v <<< n = 0#16 → P v := by
    intro n
    induction n with
    | zero =>
      intro v h
      obtain rfl : v = 0#16 := by simpa using h
      exact xor _ _ one one
    | succ n ih =>
      intro v h
      have next : P (lfsrStep 16 (v <<< 1)) :=
        step _ (ih _ (by rwa [← BitVec.shiftLeft_add, Nat.add_comm]))
      rcases eq_lfsrStep_shiftLeft v with same | top_differs
      · exact same ▸ next
      · exact top_differs ▸ xor _ _ next top
  exact shifted 16 v (BitVec.shiftLeft_eq_zero (Nat.le_refl 16))

/-- `v ^^^ f v ^^^ … ^^^ f^[p - 1] v` for linear `f`, by Horner's rule. -/
def orbitSum (f : Sample → Sample) : Nat → Sample → Sample
  | 0, _ => 0#16
  | p + 1, v => v ^^^ f (orbitSum f p v)

theorem xorLinear_orbitSum (hf : XorLinear f) (p : Nat) : XorLinear (orbitSum f p) := by
  intro u v
  induction p with
  | zero => simp [orbitSum]
  | succ p ih =>
    simp only [orbitSum, ih, hf _ _]
    ac_rfl

theorem orbitSum_apply_of_commute (hg : XorLinear g) (h : Function.Commute f g) (p : Nat) (v : Sample) :
    orbitSum f p (g v) = g (orbitSum f p v) := by
  induction p with
  | zero => exact hg.map_zero.symm
  | succ p ih => rw [orbitSum, orbitSum, ih, h.eq, hg]

/-- An odd number of equal summands. -/
theorem orbitSum_of_fixed (hf : XorLinear f) (fixed : f v = v) (m : Nat) : orbitSum f (2 * m + 1) v = v := by
  induction m with
  | zero => simp [orbitSum, hf.map_zero]
  | succ m ih =>
    have two_more : orbitSum f (2 * (m + 1) + 1) v = v ^^^ f (v ^^^ f (orbitSum f (2 * m + 1) v)) := rfl
    simp [two_more, ih, fixed, hf.map_zero]

/-- A sum of iterates that is 0 at 1 is 0 everywhere, so the iterate fixes no state but 0. -/
theorem not_isPeriodicPt_of_orbitSum_one (odd : Odd p) (h : orbitSum (lfsrStep 16)^[k] p 1#16 = 0#16)
    (hv : v ≠ 0#16) : ¬ IsPeriodicPt (lfsrStep 16) k v := by
  intro fixed
  have linear := xorLinear_lfsrStep.iterate k
  have sum_zero : orbitSum (lfsrStep 16)^[k] p v = 0#16 := by
    refine lfsrStep_induction (P := fun v => orbitSum (lfsrStep 16)^[k] p v = 0#16) h
      (fun u hu => ?_) (fun u w hu hw => ?_) v
    · rw [orbitSum_apply_of_commute xorLinear_lfsrStep (Commute.self_iterate _ _).symm, hu,
        xorLinear_lfsrStep.map_zero]
    · rw [xorLinear_orbitSum linear, hu, hw, BitVec.xor_self]
  obtain ⟨m, rfl⟩ := odd
  exact hv ((orbitSum_of_fixed linear fixed m).symm.trans sum_zero)

theorem isPeriodicPt_lfsrStep_255 (v : Sample) : IsPeriodicPt (lfsrStep 16) 255 v := by
  refine lfsrStep_induction (P := IsPeriodicPt (lfsrStep 16) 255) ?_ (fun u hu => hu.apply)
    (fun u w hu hw => ?_) v
  · have run : (lfsrNat 16)^[255] 1 = 1 := by decide +kernel
    exact (isPeriodicPt_lfsrStep_iff (.inr rfl) (by decide)).mpr run
  · exact (xorLinear_lfsrStep.iterate 255 u w).trans (congrArg₂ _ hu hw)

/-- 255 = 3 · 5 · 17. -/
theorem minimalPeriod_lfsrStep_of_ne_zero (hv : v ≠ 0#16) : minimalPeriod (lfsrStep 16) v = 255 := by
  have primes : Nat.primeFactorsList 255 = [3, 5, 17] := by simp
  have sums : ∀ p ∈ [3, 5, 17], Odd p ∧ orbitSum (lfsrStep 16)^[255 / p] p 1#16 = 0#16 := by
    decide +kernel
  refine minimalPeriod_eq_of_prime_div (by decide) (isPeriodicPt_lfsrStep_255 v) fun p hp => ?_
  obtain ⟨odd, sum⟩ := sums p (primes ▸ hp)
  exact not_isPeriodicPt_of_orbitSum_one odd sum hv

end sixteen

/-- Settles O23: 255 is the minimal period. -/
theorem lfsrCyclesHave255StatesAtSixteen : Obligations.LfsrCyclesHave255StatesAtSixteen := by
  intro v hv
  have period := minimalPeriod_lfsrStep_of_ne_zero hv
  refine ⟨isPeriodicPt_lfsrStep_255 v, fun k pos lt => ?_⟩
  exact not_isPeriodicPt_of_pos_of_lt_minimalPeriod pos.ne' (period ▸ lt)

end Sys2Proof.Machine

/-! SUPPORT. The queue's history (R182, R189 to R191): a completed command either starts it anew, pushes one
frame, pops one, drops one, or leaves it as it is. -/

namespace Sys2Proof.Machine

section queueHistory
variable {s t : State} {i : Instr} {r : Reply}

/-- A push was dropped in the session when the newest command of it did so or an older one. -/
theorem State.exists_drop_reply (h : Event.startsSession ⟨i, r⟩ = false) :
    (∃ e ∈ (s.reply i r).sessionEvents, e.isDrop = true) ↔
      Event.isDrop ⟨i, r⟩ = true ∨ ∃ e ∈ s.sessionEvents, e.isDrop = true := by
  rw [State.sessionEvents_reply h, List.exists_mem_cons_iff]

theorem State.exists_drop_reply_other (start : Event.startsSession ⟨i, r⟩ = false)
    (drop : Event.isDrop ⟨i, r⟩ = false) :
    (∃ e ∈ (s.reply i r).sessionEvents, e.isDrop = true) ↔ ∃ e ∈ s.sessionEvents, e.isDrop = true := by
  rw [State.exists_drop_reply start, drop, Bool.false_eq_true, false_or]

theorem State.pushedFrames_reply_other (start : Event.startsSession ⟨i, r⟩ = false)
    (pushed : Event.pushedFrame ⟨i, r⟩ = none) : (s.reply i r).pushedFrames = s.pushedFrames := by
  rw [State.pushedFrames_reply start, pushed, Option.toList_none, List.append_nil]

theorem State.poppedFrames_reply_other (start : Event.startsSession ⟨i, r⟩ = false)
    (popped : Event.poppedFrame ⟨i, r⟩ = none) : (s.reply i r).poppedFrames = s.poppedFrames := by
  rw [State.poppedFrames_reply start, popped, Option.toList_none, List.append_nil]

/-- A successful push adds its frame at the end. -/
theorem State.pushedFrames_publish_reply (a : Agent) (frame : List Nat) :
    ((s.publish (toFrame frame)).reply (.rbPush a frame) (.ok (.pushed true))).pushedFrames =
      s.pushedFrames ++ [toFrame frame] :=
  State.pushedFrames_reply rfl

/-- A successful pop adds the frame it returns at the end. -/
theorem State.poppedFrames_release_reply (a : Agent) (f : Frame) :
    (s.release.reply (.rbPop a) (.ok (.popped (some f)))).poppedFrames = s.poppedFrames ++ [f] :=
  State.poppedFrames_reply rfl

/-- With the cursors, the slots and the frames pushed and popped as before, only the overflow flag and the
drops it tells of are left to compare. -/
theorem State.QueueHistory.of_frames (h : s.QueueHistory) (cfg : t.cfg = s.cfg) (rd : t.rd = s.rd)
    (wr : t.wr = s.wr) (slots : t.slots = s.slots) (pushed : t.pushedFrames = s.pushedFrames)
    (popped : t.poppedFrames = s.poppedFrames)
    (overflow : t.overflow = true ↔ ∃ e ∈ t.sessionEvents, e.isDrop = true) : t.QueueHistory := by
  refine ⟨?_, ?_, ?_, ?_, overflow⟩ <;> simp only [State.slot, cfg, rd, wr, slots, pushed, popped]
  exacts [h.pushes, h.pops, h.order, h.unread]

/-- The history does not read the ports, the turns, the wait, the LFSR or `S.init`. -/
theorem State.QueueHistory.of_eq (h : s.QueueHistory) (cfg : t.cfg = s.cfg) (rd : t.rd = s.rd)
    (wr : t.wr = s.wr) (slots : t.slots = s.slots) (overflow : t.overflow = s.overflow)
    (log : t.log = s.log) : t.QueueHistory := by
  refine h.of_frames cfg rd wr slots (State.pushedFrames_eq_of_log log) (State.poppedFrames_eq_of_log log) ?_
  rw [overflow, State.sessionEvents, log]
  exact h.overflow

/-- A completed command that neither starts a session, pushes, pops nor drops keeps the history. -/
theorem State.QueueHistory.reply (h : s.QueueHistory) (start : Event.startsSession ⟨i, r⟩ = false)
    (pushed : Event.pushedFrame ⟨i, r⟩ = none) (popped : Event.poppedFrame ⟨i, r⟩ = none)
    (drop : Event.isDrop ⟨i, r⟩ = false) : (s.reply i r).QueueHistory :=
  h.of_frames rfl rfl rfl rfl (State.pushedFrames_reply_other start pushed)
    (State.poppedFrames_reply_other start popped)
    (h.overflow.trans (State.exists_drop_reply_other start drop).symm)

/-- A completed `SESSION_RESET` starts the history: no frame is counted and none is unread (R230). -/
theorem State.QueueHistory.startSession (h : Event.startsSession ⟨i, r⟩ = true) :
    (s.startSession.reply i r).QueueHistory := by
  have events : (s.startSession.reply i r).sessionEvents = [] := State.sessionEvents_reply_reset h
  have pushed : (s.startSession.reply i r).pushedFrames = [] := by simp [State.pushedFrames, events]
  have popped : (s.startSession.reply i r).poppedFrames = [] := by simp [State.poppedFrames, events]
  constructor <;> simp [events, pushed, popped]

/-- A refused push sets the flag and is the drop that the flag tells of (R178). -/
theorem State.QueueHistory.drop (h : s.QueueHistory) (a : Agent) (frame : List Nat) :
    (s.setOverflow.reply (.rbPush a frame) (.ok (.pushed false))).QueueHistory :=
  h.of_frames rfl rfl rfl rfl (State.pushedFrames_reply_other rfl rfl)
    (State.poppedFrames_reply_other rfl rfl) (iff_of_true rfl ((State.exists_drop_reply rfl).mpr (.inl rfl)))

/-- A push puts its frame behind those pushed before; the slot it writes is that of the new position and of no
other unread one (R183). -/
theorem State.QueueHistory.publish (h : s.QueueHistory) (session : s.InSession)
    (wf : Memory.wf (blankFrame s.cfg) s.slots) (room : s.fill ≠ s.cfg.capacity) (a : Agent)
    (frame : List Nat) :
    ((s.publish (toFrame frame)).reply (.rbPush a frame) (.ok (.pushed true))).QueueHistory := by
  have pushed := State.pushedFrames_publish_reply (s := s) a frame
  have popped : ((s.publish (toFrame frame)).reply (.rbPush a frame) (.ok (.pushed true))).poppedFrames =
      s.poppedFrames := State.poppedFrames_reply_other rfl rfl
  refine ⟨?_, popped ▸ h.pops, ?_, fun k lo hi => ?_, ?_⟩
  · rw [pushed, List.length_append, h.pushes]
    rfl
  · rw [popped, pushed, h.order]
    exact (List.take_append_of_le_length (h.pushes ▸ session.cursors)).symm
  · rw [pushed]
    simp only [State.reply_slot, State.reply_cfg, State.publish_cfg, State.publish_slot wf]
    rcases Nat.lt_succ_iff_lt_or_eq.mp hi with old | rfl
    · rw [List.getElem?_append_left (h.pushes ▸ old), if_neg (session.unread_ne_pushSlot room lo old)]
      exact h.unread k lo old
    · rw [← h.pushes, List.getElem?_concat_length, h.pushes]
      exact congrArg some (if_pos rfl).symm
  · exact h.overflow.trans (State.exists_drop_reply_other rfl rfl).symm

/-- The frame in the slot of the read cursor is the first one pushed that has not been popped (R190). -/
theorem State.QueueHistory.oldest (h : s.QueueHistory) (occupied : s.fill ≠ 0) :
    s.pushedFrames[s.rd]? = some (s.slot s.popSlot) :=
  h.unread s.rd (Nat.le_refl _) (Nat.lt_of_sub_ne_zero occupied)

/-- A pop returns the oldest unread frame, the next one in the order of the pushes (R189). -/
theorem State.QueueHistory.release (h : s.QueueHistory) (occupied : s.fill ≠ 0) (a : Agent) :
    (s.release.reply (.rbPop a) (.ok (.popped (some (s.slot s.popSlot))))).QueueHistory := by
  have popped := State.poppedFrames_release_reply (s := s) a (s.slot s.popSlot)
  have pushed : (s.release.reply (.rbPop a) (.ok (.popped (some (s.slot s.popSlot))))).pushedFrames =
      s.pushedFrames := State.pushedFrames_reply_other rfl rfl
  refine ⟨pushed ▸ h.pushes, ?_, ?_, fun k lo hi => ?_, ?_⟩
  · rw [popped, List.length_append, h.pops]
    rfl
  · have next : s.pushedFrames.take (s.rd + 1) = s.pushedFrames.take s.rd ++ [s.slot s.popSlot] := by
      rw [List.take_add_one, h.oldest occupied, Option.toList_some]
    rw [popped, pushed, h.order]
    exact next.symm
  · rw [pushed]
    exact h.unread k (Nat.le_of_succ_le lo) hi
  · exact h.overflow.trans (State.exists_drop_reply_other rfl rfl).symm

/-- Every way a command can leave the state keeps the history of a session, and a reset starts one. -/
theorem ExecStep.queueHistory (h : ExecStep s i t) (hs : s.Inv) (hq : s.init = true → s.QueueHistory)
    (init : t.init = true) : t.QueueHistory := by
  cases h with
  | fault _ f =>
    have calm := Event.calm_of_fault i f
    exact (hq init).reply calm.startsSession calm.pushedFrame calm.poppedFrame calm.isDrop
  | read _ _ calm =>
    exact (hq init).reply calm.startsSession calm.pushedFrame calm.poppedFrame calm.isDrop
  | reset _ => exact .startSession rfl
  | drop frame _ _ => exact (hq init).drop _ frame
  | push frame _ _ _ room _ => exact (hq init).publish (hs.session init) hs.shaped.slots room _ frame
  | pop _ occupied => exact (hq init).release occupied _
  | held _ _ _ => exact (hq init).of_eq rfl rfl rfl rfl rfl rfl
  | reseed | draw | lifted =>
    exact State.QueueHistory.reply ((hq init).of_eq rfl rfl rfl rfl rfl rfl) rfl rfl rfl rfl

/-- A wait that is asked again neither pushes nor pops. -/
theorem State.QueueHistory.holdUntil {a : Agent} {n : Nat} (hq : s.QueueHistory)
    (h : holdUntil a n s = .next t) : t.QueueHistory := by
  rcases holdUntil_cases h with ⟨-, rfl⟩ | ⟨-, rfl⟩
  · exact State.QueueHistory.reply (hq.of_eq rfl rfl rfl rfl rfl rfl) rfl rfl rfl rfl
  · exact hq.of_eq rfl rfl rfl rfl rfl rfl

theorem StepCase.queueHistory (h : StepCase s t) (hs : s.Inv) (hq : s.init = true → s.QueueHistory)
    (init : t.init = true) : t.QueueHistory := by
  cases h with
  | idle _ => exact hq init
  | silent _ _ _ => exact (hq init).of_eq rfl rfl rfl rfl rfl rfl
  | poll n rest _ _ wait turn =>
    have init' : s.init = true := hs.wait (by simp [wait])
    exact State.QueueHistory.holdUntil (s := { s with turns := rest })
      ((hq init').of_eq rfl rfl rfl rfl rfl rfl) turn
  | issue a rest _ cs _ _ _ _ _ _ run =>
    exact (exec_cases run).queueHistory ((hs.setTurns rest).setPorts (s.ports.put a cs))
      (fun hi => (hq hi).of_eq rfl rfl rfl rfl rfl rfl) init

end queueHistory

/-- Settles O52: each case of a step starts the history, pushes, pops or drops one frame in it, or leaves it. -/
theorem stepKeepsTheQueueHistory : Obligations.StepKeepsTheQueueHistory := by
  intro s t hs hq h
  obtain ⟨-, hcase⟩ := step_cases h
  exact hcase.queueHistory hs hq

end Sys2Proof.Machine

/-! SUPPORT. What the Ring Buffer's commands answer (R174, R179, R184, R185): the producer alone pushes, the
consumer alone pops, every agent reads the status view, and all need a session. -/

namespace Sys2Proof.Machine

section ringBufferExec
variable {a : Agent} {s : State} {i : Instr} {op : OpCode} {checks : List (Option Fault)} {frame : List Nat}

theorem mem_admittedAgents_rbPush : a ∈ admittedAgents 0xA#4 ↔ a = .producer := by
  cases a <;> decide

theorem mem_admittedAgents_rbPop : a ∈ admittedAgents 0xB#4 ↔ a = .consumer := by
  cases a <;> decide

theorem mem_admittedAgents_rbFill (a : Agent) : a ∈ admittedAgents 0xC#4 := by
  cases a <;> decide

theorem mem_admittedAgents_rbStatus (a : Agent) : a ∈ admittedAgents 0xE#4 := by
  cases a <;> decide

/-- An agent that the code does not admit is refused before any other check (R205, R211). -/
theorem exec_of_wrong_agent (first : checksOf s i = wrongAgent op a :: checks) (h : a ∉ admittedAgents op) :
    exec i s = .next (s.reply i (.fault (.wrongAgent op a))) :=
  exec_of_check (by rw [first, wrongAgent_eq_some h]; rfl)

/-- Before the first reset a command of an admitted agent that needs a session is refused (R207). -/
theorem exec_of_not_reset (first : checksOf s i = wrongAgent op a :: notReset s :: checks)
    (admitted : a ∈ admittedAgents op) (init : s.init = false) :
    exec i s = .next (s.reply i (.fault .notReset)) :=
  exec_of_admitted_fault first admitted (by rw [notReset_eq_some init]; rfl)

/-- In a session the fill is at most `CAPACITY` (R28). -/
theorem State.InSession.fill_le (h : s.InSession) : s.fill ≤ s.cfg.capacity :=
  Nat.sub_le_iff_le_add'.mpr h.fill

theorem State.isFull_iff : s.isFull = true ↔ s.wr - s.rd = s.cfg.capacity := beq_iff_eq

theorem State.isEmpty_iff : s.isEmpty = true ↔ s.wr - s.rd = 0 := beq_iff_eq

theorem State.wouldWrap_iff : s.wouldWrap = true ↔
    2 ^ s.cfg.cursorW % s.cfg.capacity ≠ 0 ∧ s.wr + 1 = 2 ^ s.cfg.cursorW := by
  rw [State.wouldWrap, Bool.and_eq_true, decide_eq_true_iff, beq_iff_eq]

section push
variable (init : s.init = true) (range : ∀ v ∈ frame, v < 2 ^ 16) (length : frame.length = s.cfg.frameLen)
include init range length

/-- A legal push by the producer in a session comes to its own pseudocode (R174). -/
theorem exec_rbPush : exec (.rbPush .producer frame) s =
    if s.isFull then finish (.rbPush .producer frame) (.pushed false) s.setOverflow
    else if s.wouldWrap then raise (.rbPush .producer frame) .cursorWrap s
    else finish (.rbPush .producer frame) (.pushed true) (s.publish (toFrame frame)) :=
  attempt_pass (by simpa [mem_admittedAgents_rbPush] using ⟨init, range, length⟩)

theorem exec_rbPush_of_full (full : s.isFull = true) : exec (.rbPush .producer frame) s =
    finish (.rbPush .producer frame) (.pushed false) s.setOverflow := by
  rw [exec_rbPush init range length, if_pos full]

theorem exec_rbPush_of_wrap (room : ¬ s.isFull = true) (wraps : s.wouldWrap = true) :
    exec (.rbPush .producer frame) s = raise (.rbPush .producer frame) .cursorWrap s := by
  rw [exec_rbPush init range length, if_neg room, if_pos wraps]

theorem exec_rbPush_of_room (room : ¬ s.isFull = true) (noWrap : ¬ s.wouldWrap = true) :
    exec (.rbPush .producer frame) s =
      finish (.rbPush .producer frame) (.pushed true) (s.publish (toFrame frame)) := by
  rw [exec_rbPush init range length, if_neg room, if_neg noWrap]

end push

/-- A pop by the consumer in a session comes to its own pseudocode (R179). -/
theorem exec_rbPop (init : s.init = true) : exec (.rbPop .consumer) s =
    if s.isEmpty then finish (.rbPop .consumer) (.popped none) s
    else finish (.rbPop .consumer) (.popped (some (s.slot s.popSlot))) s.release :=
  attempt_pass (by simpa [mem_admittedAgents_rbPop] using init)

theorem exec_rbPop_of_empty (init : s.init = true) (empty : s.isEmpty = true) :
    exec (.rbPop .consumer) s = finish (.rbPop .consumer) (.popped none) s := by
  rw [exec_rbPop init, if_pos empty]

theorem exec_rbPop_of_occupied (init : s.init = true) (occupied : ¬ s.isEmpty = true) :
    exec (.rbPop .consumer) s =
      finish (.rbPop .consumer) (.popped (some (s.slot s.popSlot))) s.release := by
  rw [exec_rbPop init, if_neg occupied]

theorem exec_rbFill (init : s.init = true) :
    exec (.rbFill a) s = finish (.rbFill a) (.fill s.fill) s :=
  attempt_pass (by simpa [mem_admittedAgents_rbFill] using init)

theorem exec_rbStatus (init : s.init = true) :
    exec (.rbStatus a) s = finish (.rbStatus a) (.status s.status) s :=
  attempt_pass (by simpa [mem_admittedAgents_rbStatus] using init)

end ringBufferExec

/-- Settles O24: the four checks in the order of R211, then full, the wrap and the write, whose slot is the
only one that reads otherwise. -/
theorem rbPushStoresOrReports : Obligations.RbPushStoresOrReports := by
  intro a frame s i wraps
  refine ⟨rfl, fun agent => ?_, ?_⟩
  · exact exec_of_wrong_agent rfl (fun h => agent (mem_admittedAgents_rbPush.mp h))
  refine ⟨fun agent init => ?_, fun agent init range => ⟨0, ?_⟩, fun agent init range length => ?_,
    fun agent init range length => ?_⟩ <;> subst agent
  · exact exec_of_not_reset rfl (mem_admittedAgents_rbPush.mpr rfl) init
  · exact exec_of_admitted_fault rfl (mem_admittedAgents_rbPush.mpr rfl)
      (by simp [notReset_eq_none.mpr init, anyOutOfRange_eq_some range])
  · have illegal : (frame.length == s.cfg.frameLen) = false := beq_false_of_ne length
    exact exec_of_admitted_fault rfl (mem_admittedAgents_rbPush.mpr rfl)
      (by simp [notReset_eq_none.mpr init, anyOutOfRange_eq_none.mpr range, badLength_eq_some illegal])
  · refine ⟨fun full => exec_rbPush_of_full init range length (State.isFull_iff.mpr full),
      fun room wrap => ?_, fun room noWrap wf => ?_⟩
    · exact exec_rbPush_of_wrap init range length (mt State.isFull_iff.mp room) (State.wouldWrap_iff.mpr wrap)
    · refine ⟨(s.publish (toFrame frame)).slots, ?_, ?_, fun k other => ?_⟩
      · exact exec_rbPush_of_room init range length (mt State.isFull_iff.mp room)
          (mt State.wouldWrap_iff.mp noWrap)
      · exact (State.publish_slot wf).trans (if_pos rfl)
      · exact (State.publish_slot wf).trans (if_neg other)

/-- Settles O32: the push finds room, so its slot is that of no unread frame; the pop's slot is that of the
oldest one. -/
theorem pushSlotHoldsNoUnreadFrame : Obligations.PushSlotHoldsNoUnreadFrame := by
  intro frame s hs hq init
  refine ⟨fun notFull length range noWrap => ?_, fun occupied => ?_⟩
  · have room : s.fill ≠ s.cfg.capacity := Nat.ne_of_lt notFull
    have noWrap' : ¬ s.wouldWrap = true := fun h =>
      noWrap.elim (State.wouldWrap_iff.mp h).1 (fun ne => ne (State.wouldWrap_iff.mp h).2)
    have slot (k : Nat) : (s.publish (toFrame frame)).slot k =
        if k = s.pushSlot then toFrame frame else s.slot k := State.publish_slot hs.shaped.slots
    refine ⟨_, exec_rbPush_of_room init range length (mt State.isFull_iff.mp room) noWrap', ?_,
      fun p lo hi => ?_⟩
    · exact (slot s.pushSlot).trans (if_pos rfl)
    · have other : p % s.cfg.capacity ≠ s.pushSlot := (hs.session init).unread_ne_pushSlot room lo hi
      rw [State.reply_slot, slot, if_neg other]
      exact ⟨other, hq.unread p lo hi⟩
  · exact ⟨_, hq.oldest occupied, exec_rbPop_of_occupied init (mt State.isEmpty_iff.mp occupied)⟩

/-- Settles O26: the two checks in the order of R211, then the empty buffer and the release. -/
theorem rbPopReturnsTheOldestFrame : Obligations.RbPopReturnsTheOldestFrame := by
  intro a s i
  refine ⟨rfl, fun agent => ?_, ?_⟩
  · exact exec_of_wrong_agent rfl (fun h => agent (mem_admittedAgents_rbPop.mp h))
  refine ⟨fun agent init => ?_, fun agent init empty => ?_, fun agent init occupied => ?_⟩ <;> subst agent
  · exact exec_of_not_reset rfl (mem_admittedAgents_rbPop.mpr rfl) init
  · exact exec_rbPop_of_empty init (State.isEmpty_iff.mpr empty)
  · exact exec_rbPop_of_occupied init (mt State.isEmpty_iff.mp occupied)

/-- Settles O27: every agent is admitted, so only the missing reset can refuse the two commands. -/
theorem statusAndFillReadTheView : Obligations.StatusAndFillReadTheView := by
  intro a s
  refine ⟨rfl, rfl, fun init => ⟨exec_rbStatus init, exec_rbFill init, fun hs => ?_⟩,
    fun init => ⟨?_, ?_⟩⟩
  · exact (hs.session init).fill_le
  · exact exec_of_not_reset rfl (mem_admittedAgents_rbStatus a) init
  · exact exec_of_not_reset rfl (mem_admittedAgents_rbFill a) init

end Sys2Proof.Machine

/-! SUPPORT. A hold that nothing lifts (R187): while the consumer is held no command writes its wait, and the
check of the wait fails at every turn when it asks for more than `CAPACITY` frames. -/

namespace Sys2Proof.Machine

/-- What every step keeps holds after any number of steps. -/
theorem run_invariant {M : Host.Core} {P : M.State → Prop}
    (keeps : ∀ s t, P s → M.step s = .next t → P t) (k : Nat) {s t : M.State} (start : P s)
    (h : M.run k s = .next t) : P t := by
  induction k generalizing s with
  | zero => exact Host.Outcome.next.inj h ▸ start
  | succ k ih =>
    unfold Host.Core.run at h
    split at h
    case h_1 s' step => exact ih (keeps s s' start step) h
    all_goals cases h

section wait
variable {s t : State} {n : Nat}

theorem mem_admittedAgents_rbWait {a : Agent} : a ∈ admittedAgents 0xD#4 ↔ a = .consumer := by
  cases a <;> decide

theorem exec_rbWait (init : s.init = true) : exec (.rbWait .consumer n) s = holdUntil .consumer n s :=
  attempt_pass (by simpa [mem_admittedAgents_rbWait] using init)

theorem holdUntil_of_fill_lt {a : Agent} (h : s.fill < n) : holdUntil a n s = .next { s with wait := some n } :=
  if_neg (Nat.not_le.mpr h)

/-- While the consumer is held only a turn of its own writes the wait, and that turn asks again (R32). -/
theorem StepCase.wait_cases (h : StepCase s t) (wait : s.wait = some n) :
    t.wait = some n ∨ ∃ rest, holdUntil .consumer n { s with turns := rest } = .next t := by
  cases h with
  | idle _ => exact .inl wait
  | silent _ _ _ => exact .inl wait
  | poll m rest _ _ wait' turn =>
    obtain rfl : m = n := Option.some.inj (wait'.symm.trans wait)
    exact .inr ⟨rest, turn⟩
  | issue a rest c cs i _ _ free _ decoded run =>
    refine .inl (by_contra fun changed => ?_)
    obtain ⟨m, rfl⟩ := (exec_cases run).eq_rbWait_of_wait_ne (fun same => changed (same.trans wait))
    have consumer : a = .consumer := (encode_of_decode decoded).2.symm
    exact nomatch wait.symm.trans (free consumer)

theorem StepCase.cfg_eq (h : StepCase s t) : t.cfg = s.cfg := by
  cases h with
  | idle _ => rfl
  | silent _ _ _ => rfl
  | poll _ _ _ _ _ turn => rcases holdUntil_cases turn with ⟨-, rfl⟩ | ⟨-, rfl⟩ <;> rfl
  | issue _ _ _ _ _ _ _ _ _ _ run => exact (exec_cases run).cfg_eq

/-- The consumer is held by a wait for more frames than the buffer can hold. -/
structure State.HeldForEver (n : Nat) (s : State) : Prop where
  inv : s.Inv
  wait : s.wait = some n
  above : s.cfg.capacity < n

theorem State.HeldForEver.step (hs : s.HeldForEver n) (h : Machine.step s = .next t) : t.HeldForEver n := by
  obtain ⟨inv, wait, above⟩ := hs
  obtain ⟨-, hcase⟩ := step_cases h
  refine ⟨hcase.inv inv, ?_, hcase.cfg_eq ▸ above⟩
  have short : s.fill < n :=
    Nat.lt_of_le_of_lt (inv.session (inv.wait (by simp [wait]))).fill_le above
  rcases hcase.wait_cases wait with held | ⟨rest, turn⟩
  · exact held
  · rw [holdUntil_of_fill_lt (s := { s with turns := rest }) short] at turn
    exact Host.Outcome.next.inj turn ▸ rfl

end wait

/-- Settles O29: the wait holds the consumer for ever, and that is an invariant of the step. -/
theorem waitAboveCapacityNeverCompletes : Obligations.WaitAboveCapacityNeverCompletes := by
  intro n s hs init above
  refine ⟨?_, fun k t run => ?_⟩
  · rw [exec_rbWait init]
    exact holdUntil_of_fill_lt (Nat.lt_of_le_of_lt (hs.session init).fill_le above)
  · have start : State.HeldForEver n { s with wait := some n } := ⟨hs.setWait init (some n), rfl, above⟩
    exact (run_invariant (fun _ _ => State.HeldForEver.step) k start run).wait

/-! SUPPORT. How one command moves the cursors within a session (R244): the read cursor only with a frame
returned, the write cursor only with a frame pushed. -/

section fill
variable {s t : State} {i : Instr}

/-- How the cursors move while no session starts: not at all, or with a frame that the session's history
gains. -/
inductive CursorMove (s t : State) : Prop
  | none (rd : t.rd = s.rd) (wr : t.wr = s.wr)
  | push (rd : t.rd = s.rd) (wr : t.wr = s.wr + 1) (gained : t.pushedFrames ≠ s.pushedFrames)
  | pop (rd : t.rd = s.rd + 1) (wr : t.wr = s.wr) (gained : t.poppedFrames ≠ s.poppedFrames)

theorem ExecStep.cursorMove (h : ExecStep s i t)
    (session : ∀ e, t.log = e :: s.log → e.startsSession = false) : CursorMove s t := by
  cases h
  case reset => exact nomatch session _ rfl
  case push frame _ _ _ _ _ =>
    exact .push rfl rfl (by simp [State.pushedFrames_publish_reply])
  case pop => exact .pop rfl rfl (by simp [State.poppedFrames_release_reply])
  all_goals exact .none rfl rfl

theorem StepCase.cursorMove (h : StepCase s t)
    (session : ∀ e, t.log = e :: s.log → e.startsSession = false) : CursorMove s t := by
  cases h with
  | idle _ => exact .none rfl rfl
  | silent _ _ _ => exact .none rfl rfl
  | poll _ _ _ _ _ turn => rcases holdUntil_cases turn with ⟨-, rfl⟩ | ⟨-, rfl⟩ <;> exact .none rfl rfl
  | issue _ _ _ _ _ _ _ _ _ _ run =>
    cases (exec_cases run).cursorMove session with
    | none rd wr => exact .none rd wr
    | push rd wr gained => exact .push rd wr gained
    | pop rd wr gained => exact .pop rd wr gained

end fill

/-- Settles O34: of the steps that move a cursor, a push only raises the fill and a pop only lowers it. -/
theorem observedFillIsOneSided : Obligations.ObservedFillIsOneSided := by
  intro s t _ _ h session
  obtain ⟨-, hcase⟩ := step_cases h
  cases hcase.cursorMove session with
  | none rd wr =>
    rw [rd, wr]
    exact ⟨fun _ => Nat.le_refl _, fun _ => Nat.le_refl _⟩
  | push rd wr gained =>
    rw [rd, wr]
    exact ⟨fun _ => Nat.sub_le_sub_right (Nat.le_succ _) _, fun same => absurd same gained⟩
  | pop rd wr gained =>
    rw [rd, wr]
    exact ⟨fun same => absurd same gained, fun _ => Nat.sub_le_sub_left (Nat.le_succ _) _⟩

end Sys2Proof.Machine

/-! SUPPORT. The check order of spec/60_exceptions.md R211 for all commands at once: the agent, the first reset,
the widths of the operands, and last the check of the command's own. -/

namespace Sys2Proof.Machine

/-- `F_NOT_RESET` is a check of the stateful codes only (R207). -/
def resetChecks (s : State) (i : Instr) : List (Option Fault) :=
  if 0x8#4 ≤ i.opcode then [notReset s] else []

/-- The checks of a command's operands against their widths (R203). -/
def rangeChecks : Instr → List (Option Fault)
  | .codecWrite _ address value => [outOfRange 7 0 address, outOfRange 24 1 value]
  | .codecReadReq _ address => [outOfRange 7 0 address]
  | .codecReadResp _ rx0 rx1 rx2 rx3 => [anyOutOfRange 8 0 [rx0, rx1, rx2, rx3]]
  | .codecBurstReq _ startAddress => [outOfRange 7 0 startAddress]
  | .unpack3 _ b0 b1 b2 => [outOfRange 8 0 b0, outOfRange 8 1 b1, outOfRange 8 2 b2]
  | .unpackRun _ bytes => [anyOutOfRange 8 0 bytes]
  | .unpackSlice _ slice => [anyOutOfRange 8 0 slice]
  | .rbPush _ frame => [anyOutOfRange 16 0 frame]
  | _ => []

/-- The check that only one command makes: a length (R204) or the held consumer (R208). -/
def ownChecks (s : State) : Instr → List (Option Fault)
  | .sessionReset _ => [resetBusy s]
  | .unpackRun _ bytes => [badLength (bytes.length % 3 == 0) bytes.length]
  | .unpackSlice _ slice =>
    [badLength (decide (4 ≤ slice.length) && (slice.length - 4) % 3 == 0) slice.length]
  | .rbPush _ frame => [badLength (frame.length == s.cfg.frameLen) frame.length]
  | _ => []

/-- `n` is the illegal length of the command's sequence (R204). -/
def IllegalLength (s : State) (i : Instr) (n : Nat) : Prop :=
  (∃ a bytes, i = .unpackRun a bytes ∧ n = bytes.length ∧ n % 3 ≠ 0) ∨
  (∃ a slice, i = .unpackSlice a slice ∧ n = slice.length ∧ (n < 4 ∨ (n - 4) % 3 ≠ 0)) ∨
  (∃ a frame, i = .rbPush a frame ∧ n = frame.length ∧ n ≠ s.cfg.frameLen)

section checkOrder
variable {i : Instr} {s : State} {f : Fault}

theorem eq_reserved_of_opcode (op : i.opcode = 0xF#4) : ∃ a operands, i = .reserved0xF a operands := by
  cases i
  case reserved0xF a operands => exact ⟨a, operands, rfl⟩
  all_goals exact absurd op (by simp only [Instr.opcode]; decide)

/-- The checks of every command with a meaning, in the order of R211. -/
theorem checksOf_eq_stages (op : i.opcode ≠ 0xF#4) : checksOf s i =
    wrongAgent i.opcode i.agent :: (resetChecks s i ++ (rangeChecks i ++ ownChecks s i)) := by
  cases i
  case reserved0xF => exact absurd rfl op
  all_goals rfl

/-- The first fault of two stages is one of the first stage, or one of the second after the first passes. -/
theorem findSome?_stages {before after : List (Option Fault)} :
    (before ++ after).findSome? id = some f ↔
      before.findSome? id = some f ∨ (∀ c ∈ before, c = none) ∧ after.findSome? id = some f := by
  simp [List.findSome?_append, Option.or_eq_some_iff, List.findSome?_eq_none_iff]

theorem mem_of_findSome?_id {checks : List (Option Fault)} (h : checks.findSome? id = some f) :
    some f ∈ checks := by
  obtain ⟨before, after, rfl, -⟩ := first_check_cases h
  simp

theorem resetChecks_of_stateful (stateful : 0x8#4 ≤ i.opcode) : resetChecks s i = [notReset s] :=
  if_pos stateful

theorem resetChecks_pass : (∀ c ∈ resetChecks s i, c = none) ↔ s.init = true ∨ i.opcode < 0x8#4 := by
  unfold resetChecks
  split
  · rename_i stateful
    simp [BitVec.not_lt.mpr stateful]
  · rename_i stateless
    simp [BitVec.not_le.mp stateless]

theorem resetChecks_fail (h : some f ∈ resetChecks s i) :
    0x8#4 ≤ i.opcode ∧ s.init = false ∧ f = .notReset := by
  unfold resetChecks at h
  split at h
  · rename_i stateful
    exact ⟨stateful, some_eq_notReset.mp (List.mem_singleton.mp h)⟩
  · exact nomatch h

theorem rangeChecks_pass : (∀ c ∈ rangeChecks i, c = none) ↔ i.wellFormed = true := by
  cases i <;> simp [rangeChecks, Instr.wellFormed]

theorem rangeChecks_fail (h : some f ∈ rangeChecks i) : ∃ p, f = .operandRange p := by
  cases i <;> simp only [rangeChecks, List.mem_cons, List.not_mem_nil, or_false, some_eq_outOfRange,
    some_eq_anyOutOfRange] at h
  case codecWrite => rcases h with ⟨-, rfl⟩ | ⟨-, rfl⟩ <;> exact ⟨_, rfl⟩
  case unpack3 => rcases h with ⟨-, rfl⟩ | ⟨-, rfl⟩ | ⟨-, rfl⟩ <;> exact ⟨_, rfl⟩
  all_goals exact ⟨_, h.2⟩

/-- A command with an operand above its width fails one of its range checks. -/
theorem rangeChecks_of_not_wellFormed (h : i.wellFormed = false) :
    ∃ p, (rangeChecks i).findSome? id = some (.operandRange p) := by
  cases first : (rangeChecks i).findSome? id with
  | none =>
    have pass : i.wellFormed = true :=
      rangeChecks_pass.mp (by simpa [List.findSome?_eq_none_iff] using first)
    exact absurd pass (by simp [h])
  | some f =>
    obtain ⟨p, rfl⟩ := rangeChecks_fail (mem_of_findSome?_id first)
    exact ⟨p, rfl⟩

theorem ownChecks_fail (h : some f ∈ ownChecks s i) :
    ((∃ a, i = .sessionReset a) ∧ s.wait ≠ none ∧ f = .resetBusy) ∨
    (∃ n, IllegalLength s i n ∧ f = .length n) := by
  cases i with
  | sessionReset a => exact .inl ⟨⟨a, rfl⟩, some_eq_resetBusy.mp (List.mem_singleton.mp h)⟩
  | unpackRun a bytes =>
    obtain ⟨illegal, rfl⟩ := some_eq_badLength.mp (List.mem_singleton.mp h)
    exact .inr ⟨_, .inl ⟨a, bytes, rfl, rfl, by simpa using illegal⟩, rfl⟩
  | unpackSlice a slice =>
    obtain ⟨illegal, rfl⟩ := some_eq_badLength.mp (List.mem_singleton.mp h)
    refine .inr ⟨_, .inr (.inl ⟨a, slice, rfl, rfl, ?_⟩), rfl⟩
    simpa only [Bool.and_eq_false_iff, decide_eq_false_iff_not, Nat.not_le, beq_eq_false_iff_ne] using illegal
  | rbPush a frame =>
    obtain ⟨illegal, rfl⟩ := some_eq_badLength.mp (List.mem_singleton.mp h)
    exact .inr ⟨_, .inr (.inr ⟨a, frame, rfl, rfl, by simpa using illegal⟩), rfl⟩
  | _ => exact nomatch h

/-- Why the checks of a command end with a fault: the stage that fails, after the stages before it passed. -/
inductive CheckFails (s : State) (i : Instr) : Fault → Prop
  | illegalOp (op : i.opcode = 0xF#4) : CheckFails s i .illegalOp
  | wrongAgent (op : i.opcode ≠ 0xF#4) (agent : i.agent ∉ admittedAgents i.opcode) :
      CheckFails s i (.wrongAgent i.opcode i.agent)
  | notReset (agent : i.agent ∈ admittedAgents i.opcode) (op : i.opcode ≠ 0xF#4)
      (stateful : 0x8#4 ≤ i.opcode) (init : s.init = false) : CheckFails s i .notReset
  | operandRange (p : Nat) (agent : i.agent ∈ admittedAgents i.opcode)
      (reset : s.init = true ∨ i.opcode < 0x8#4) (range : i.wellFormed = false) :
      CheckFails s i (.operandRange p)
  | length (n : Nat) (agent : i.agent ∈ admittedAgents i.opcode)
      (reset : s.init = true ∨ i.opcode < 0x8#4) (range : i.wellFormed = true)
      (illegal : IllegalLength s i n) : CheckFails s i (.length n)
  | resetBusy (a : Agent) (instr : i = .sessionReset a) (agent : i.agent ∈ admittedAgents i.opcode)
      (held : s.wait ≠ none) : CheckFails s i .resetBusy

theorem checkFails_of_first (h : (checksOf s i).findSome? id = some f) : CheckFails s i f := by
  by_cases op : i.opcode = 0xF#4
  · obtain ⟨a, operands, rfl⟩ := eq_reserved_of_opcode op
    obtain rfl : Fault.illegalOp = f := Option.some.inj h
    exact .illegalOp op
  rw [checksOf_eq_stages op] at h
  rcases findSome?_stages (before := [Machine.wrongAgent _ _]).mp h with fails | ⟨pass, h⟩
  · obtain ⟨agent, rfl⟩ := some_eq_wrongAgent.mp (List.mem_singleton.mp (mem_of_findSome?_id fails))
    exact .wrongAgent op agent
  have agent : i.agent ∈ admittedAgents i.opcode := by simpa using pass
  rcases findSome?_stages.mp h with fails | ⟨pass, h⟩
  · obtain ⟨stateful, init, rfl⟩ := resetChecks_fail (mem_of_findSome?_id fails)
    exact .notReset agent op stateful init
  have reset : s.init = true ∨ i.opcode < 0x8#4 := resetChecks_pass.mp pass
  rcases findSome?_stages.mp h with fails | ⟨pass, h⟩
  · obtain ⟨p, rfl⟩ := rangeChecks_fail (mem_of_findSome?_id fails)
    refine .operandRange p agent reset (Bool.eq_false_iff.mpr fun range => ?_)
    exact nomatch rangeChecks_pass.mpr range _ (mem_of_findSome?_id fails)
  rcases ownChecks_fail (mem_of_findSome?_id h) with ⟨⟨a, instr⟩, held, rfl⟩ | ⟨n, illegal, rfl⟩
  · exact .resetBusy a instr agent held
  · exact .length n agent reset (rangeChecks_pass.mp pass) illegal

theorem mem_admittedAgents_sessionReset {a : Agent} : a ∈ admittedAgents 0x0#4 ↔ a = .host := by
  cases a <;> decide

/-- A row of R75 without agents of its own admits all three. -/
theorem mem_admittedAgents_of_open {op : OpCode} (h : op ∉ [0x0#4, 0x8#4, 0x9#4, 0xA#4, 0xB#4, 0xD#4, 0xF#4])
    (a : Agent) : a ∈ admittedAgents op := by
  revert h op
  cases a <;> decide

end checkOrder

/-- Settles O37: the code's row takes any operands, and its meaning is the fault. -/
theorem reservedCodeIsRefused : Obligations.ReservedCodeIsRefused :=
  fun _ _ _ => ⟨rfl, rfl⟩

/-- Settles O41: the stage of the check order that fails, or, after all of them, the push that would wrap its
cursor. -/
theorem faultsHaveTheirCauses : Obligations.FaultsHaveTheirCauses := by
  intro i s f h
  rcases exec_fault_cases h with fails | ⟨pass, rfl, room, wraps, a, frame, rfl⟩
  · cases checkFails_of_first fails with
    | illegalOp op => exact op
    | wrongAgent op agent => exact ⟨op, rfl, rfl, agent⟩
    | notReset agent op stateful init => exact ⟨agent, stateful, by bv_omega, init⟩
    | operandRange _ agent reset range => exact ⟨agent, reset, range⟩
    | length _ agent reset range illegal => exact ⟨agent, reset, range, illegal⟩
    | resetBusy a instr agent held =>
      subst instr
      exact ⟨congrArg _ (mem_admittedAgents_sessionReset.mp agent), held⟩
  · simp only [checksOf, List.forall_mem_cons, wrongAgent_eq_none, notReset_eq_none, badLength_eq_none,
      beq_iff_eq] at pass
    obtain ⟨agent, init, range, length, -⟩ := pass
    have widths : (Instr.rbPush a frame).wellFormed = true :=
      rangeChecks_pass.mp (by simpa [rangeChecks] using range)
    obtain ⟨divides, top⟩ := State.wouldWrap_iff.mp wraps
    have notFull : s.wr - s.rd ≠ s.cfg.capacity := fun full => by simp [State.isFull_iff.mpr full] at room
    exact ⟨agent, .inl init, widths, ⟨a, frame, rfl, length⟩, notFull, divides, top⟩

/-- Settles O38: the rows of R75 that do not admit every agent, and the first check of a command with a row. -/
theorem wrongAgentIsRefused : Obligations.WrongAgentIsRefused := by
  intro i s admitted
  have row (code : i.opcode ≠ 0xF#4) : admitted ↔ i.agent ∈ admittedAgents i.opcode := by
    cases i
    case reserved0xF => exact absurd rfl code
    case sessionReset => exact mem_admittedAgents_sessionReset.symm
    case lfsrReseed a => cases a <;> decide
    case lfsrNext => exact mem_admittedAgents_lfsrNext.symm
    case rbPush => exact mem_admittedAgents_rbPush.symm
    case rbPop => exact mem_admittedAgents_rbPop.symm
    case rbWait => exact mem_admittedAgents_rbWait.symm
    all_goals exact iff_of_true trivial (mem_admittedAgents_of_open (by simp only [Instr.opcode]; decide) _)
  refine ⟨fun refused => ?_, fun ok op a h => ?_⟩
  · have code : i.opcode ≠ 0xF#4 := fun reserved => by
      obtain ⟨a, operands, rfl⟩ := eq_reserved_of_opcode reserved
      exact refused trivial
    exact exec_of_wrong_agent (checksOf_eq_stages code) (mt (row code).mpr refused)
  · obtain ⟨code, -, -, agent⟩ := faultsHaveTheirCauses i s _ h
    exact agent ((row code).mp ok)

/-- Settles O39: the second check of a stateful command, whose cause is that no reset has happened. -/
theorem notResetIsRefused : Obligations.NotResetIsRefused := by
  intro i s
  refine ⟨fun stateful below agent init => ?_, fun free h => ?_⟩
  · have op : i.opcode ≠ 0xF#4 := by bv_omega
    exact exec_of_not_reset ((checksOf_eq_stages op).trans (by rw [resetChecks_of_stateful stateful]; rfl))
      agent init
  · obtain ⟨-, stateful, below, init⟩ := faultsHaveTheirCauses i s _ h
    rcases free with reset | stateless | reserved
    · exact nomatch init.symm.trans reset
    · exact absurd stateful (BitVec.not_le.mpr stateless)
    · exact absurd below (by rw [reserved]; decide)

/-- Settles O40: the bounds are those of `Instr.wellFormed`, and a command that is not fails a range check after
its earlier checks pass. -/
theorem operandRangeIsRefused : Obligations.OperandRangeIsRefused := by
  intro i s tooWide
  have widths : tooWide ↔ i.wellFormed = false := by
    cases i <;> simp only [tooWide, Instr.wellFormed, List.all_cons, List.all_nil, Bool.and_true,
      Bool.and_eq_false_iff, List.all_eq_false, decide_eq_true_iff, decide_eq_false_iff_not, Nat.not_lt,
      reduceCtorEq]
    all_goals rfl
  refine ⟨widths, fun wide agent reset => ?_, fun fits p h => ?_⟩
  · have op : i.opcode ≠ 0xF#4 := fun reserved => by simp [reserved, admittedAgents] at agent
    obtain ⟨p, first⟩ := rangeChecks_of_not_wellFormed (widths.mp wide)
    refine ⟨p, exec_of_admitted_fault (checksOf_eq_stages op) agent ?_⟩
    exact findSome?_stages.mpr (.inr ⟨resetChecks_pass.mpr reset, findSome?_stages.mpr (.inl first)⟩)
  · obtain ⟨-, -, wide⟩ := faultsHaveTheirCauses i s _ h
    exact fits (widths.mpr wide)

/-! SUPPORT. The record of the faults (R209): every command adds at most its own reply to the log, and no step
drops an entry. -/

section record
variable {s t : State} {i : Instr} {f : Fault}

theorem State.faults_reply_fault : (s.reply i (.fault f)).faults = (i, f) :: s.faults := rfl

/-- A command that reports a fault changes nothing else (R209). -/
theorem ExecStep.eq_reply_of_fault (h : ExecStep s i t) (log : t.log = ⟨i, .fault f⟩ :: s.log) :
    t = s.reply i (.fault f) := by
  cases h
  case fault g =>
    obtain rfl : g = f := by simpa using log
    rfl
  all_goals simp at log

theorem holdUntil_log_suffix {a : Agent} {n : Nat} (h : holdUntil a n s = .next t) : s.log <:+ t.log := by
  rcases holdUntil_cases h with ⟨-, rfl⟩ | ⟨-, rfl⟩
  · exact List.suffix_cons _ _
  · exact List.suffix_rfl

theorem ExecStep.log_suffix (h : ExecStep s i t) : s.log <:+ t.log := by
  rcases h.log_cases with same | ⟨r, gained⟩
  · exact same ▸ List.suffix_rfl
  · exact gained ▸ List.suffix_cons _ _

/-- What has completed stays completed. -/
theorem StepCase.log_suffix (h : StepCase s t) : s.log <:+ t.log := by
  cases h with
  | idle _ => exact List.suffix_rfl
  | silent _ _ _ => exact List.suffix_rfl
  | poll _ rest _ _ _ turn => exact holdUntil_log_suffix (s := { s with turns := rest }) turn
  | issue _ _ _ _ _ _ _ _ _ _ run => exact (exec_cases run).log_suffix

/-- The fault record is read off the log, entry by entry. -/
theorem State.faults_suffix (h : s.log <:+ t.log) : s.faults <:+ t.faults := h.filterMap _

end record

/-- Settles O42: the reply is the only change of a faulted command, and every step keeps the log as a suffix. -/
theorem faultsChangeNothingAndAreKept : Obligations.FaultsChangeNothingAndAreKept := by
  refine ⟨fun i s t f h log => ?_, fun s t h => ?_⟩
  · obtain rfl : t = s.reply i (.fault f) := (exec_cases h).eq_reply_of_fault log
    exact ⟨rfl, State.faults_reply_fault⟩
  · obtain ⟨-, hcase⟩ := step_cases h
    have kept : s.faults <:+ t.faults := State.faults_suffix hcase.log_suffix
    exact ⟨kept, mt fun correct => List.suffix_nil.mp (correct ▸ kept)⟩

/-- Settles O43: every command has a next state, and only a wait that holds the consumer has no reply there. -/
theorem everyCommandHasAnOutcome : Obligations.EveryCommandHasAnOutcome := by
  intro i s
  obtain ⟨t, h⟩ := exec_next i s
  cases exec_cases h
  case held n init fill => exact .inr ⟨n, rfl, init, fill, h⟩
  all_goals exact .inl ⟨_, _, h, rfl⟩

end Sys2Proof.Machine

/-! SUPPORT. A step by the turn it takes (R10, R32, log 7): which agent's turn it is and what its port holds
decide what runs. -/

namespace Sys2Proof.Machine

section turn
variable {a : Agent} {s t : State} {rest : List Agent} {c : Command} {cs : List Command} {n : Nat}

/-- With no turn left a step of a well-formed configuration changes nothing (R22). -/
theorem step_of_no_turn (wf : s.cfg.WF) (turns : s.turns = []) : step s = .next s := by
  rw [step, if_pos wf, runTurn, turns]

theorem step_of_turn (wf : s.cfg.WF) (turns : s.turns = a :: rest) :
    step s = takeTurn a { s with turns := rest } := by
  rw [step, if_pos wf, runTurn, turns]

/-- The turn of a held consumer asks its wait again (R32). -/
theorem takeTurn_of_held (wait : s.wait = some n) : takeTurn .consumer s = holdUntil .consumer n s := by
  simp only [takeTurn, wait]

/-- The turn of an agent that is no held consumer goes to its port. -/
theorem takeTurn_of_free (free : a = .consumer → s.wait = none) : takeTurn a s = issueNext a s := by
  cases a
  case consumer => simp [takeTurn, free rfl]
  all_goals rfl

theorem step_of_free (wf : s.cfg.WF) (turns : s.turns = a :: rest) (free : a = .consumer → s.wait = none) :
    step s = issueNext a { s with turns := rest } :=
  (step_of_turn wf turns).trans (takeTurn_of_free (s := { s with turns := rest }) free)

theorem issueNext_of_empty (port : s.ports.of a = []) : issueNext a s = .next s := by
  rw [issueNext, port]

theorem issueNext_of_command {i : Instr} (port : s.ports.of a = c :: cs) (decoded : decode a c = .ok i) :
    issueNext a s = exec i { s with ports := s.ports.put a cs } := by
  simp only [issueNext, port, decoded]

theorem issueNext_of_malformed {e : DecodeError} (port : s.ports.of a = c :: cs)
    (malformed : decode a c = .error e) : issueNext a s = .refused (.malformedCommand e) := by
  simp only [issueNext, port, malformed]

/-- The turn of an agent that is no held consumer runs the first command on its port. -/
theorem step_of_command {i : Instr} (wf : s.cfg.WF) (turns : s.turns = a :: rest)
    (free : a = .consumer → s.wait = none) (port : s.ports.of a = c :: cs) (decoded : decode a c = .ok i) :
    step s = exec i { s with turns := rest, ports := s.ports.put a cs } :=
  (step_of_free wf turns free).trans (issueNext_of_command (s := { s with turns := rest }) port decoded)

end turn

/-- Settles O47: a step is the turn, the turn goes to the port, and the port's first record decides. -/
theorem stepRunsTheDecodedCommand : Obligations.StepRunsTheDecodedCommand := by
  intro s wf
  refine ⟨step_of_no_turn wf, fun a rest turns free => ?_⟩
  have turn := step_of_free wf turns free
  refine ⟨fun empty => ?_, fun c cs port => ⟨fun i decoded => ?_, fun e malformed => ?_⟩⟩
  · exact turn.trans (issueNext_of_empty empty)
  · exact step_of_command wf turns free port decoded
  · exact turn.trans (issueNext_of_malformed port malformed)

/-! SUPPORT. What a held wait does (R186, R32): its condition decides whether it completes, and while it stands
the consumer's port is not read. -/

section held
variable {a : Agent} {s t : State} {rest : List Agent} {n : Nat}

theorem holdUntil_of_le_fill (h : n ≤ s.fill) :
    holdUntil a n s = .next (State.reply { s with wait := none } (.rbWait a n) (.ok .none)) :=
  if_pos h

/-- A held consumer's turn is the check of its wait and nothing else (R32). -/
theorem step_of_held (wf : s.cfg.WF) (wait : s.wait = some n) (turns : s.turns = .consumer :: rest) :
    step s = holdUntil .consumer n { s with turns := rest } :=
  (step_of_turn wf turns).trans (takeTurn_of_held (s := { s with turns := rest }) wait)

theorem holdUntil_ports (h : holdUntil a n s = .next t) : t.ports = s.ports := by
  rcases holdUntil_cases h with ⟨-, rfl⟩ | ⟨-, rfl⟩ <;> rfl

/-- While the consumer is held only the other agents' ports lose commands (R32). -/
theorem StepCase.consumer_port_eq (h : StepCase s t) (wait : s.wait = some n) :
    t.ports.of .consumer = s.ports.of .consumer := by
  cases h with
  | idle _ => rfl
  | silent _ _ _ => rfl
  | poll _ rest _ _ _ turn => rw [holdUntil_ports turn]
  | issue a rest c cs i _ _ free _ _ run =>
    have other : Agent.consumer ≠ a := fun same => nomatch wait.symm.trans (free same.symm)
    rw [(exec_cases run).ports_eq]
    exact Ports.of_put_other _ _ _ _ other

end held

/-- Settles O28: the two checks in the order of R211, and the hold, which a held consumer's turn asks again. -/
theorem rbWaitCompletesOrHolds : Obligations.RbWaitCompletesOrHolds := by
  intro a n s i
  refine ⟨rfl, fun agent => ?_, ?_⟩
  · exact exec_of_wrong_agent rfl (mt mem_admittedAgents_rbWait.mp agent)
  refine ⟨fun agent init => ?_, fun agent init enough => ?_, fun agent init short => ?_,
    fun rest agent wf wait turns => ?_⟩ <;> subst agent
  · exact exec_of_not_reset rfl (mem_admittedAgents_rbWait.mpr rfl) init
  · exact (exec_rbWait init).trans (holdUntil_of_le_fill enough)
  · exact (exec_rbWait init).trans (holdUntil_of_fill_lt short)
  · rw [step_of_held wf wait turns]
    refine ⟨fun enough => ?_, fun short => ?_⟩
    · exact holdUntil_of_le_fill (s := { s with turns := rest }) enough
    · exact (holdUntil_of_fill_lt (s := { s with turns := rest }) short).trans (by rw [← wait])

/-- Settles O48: the one step that may write a held wait is its own check, which then completes it. -/
theorem heldConsumerIssuesNothing : Obligations.HeldConsumerIssuesNothing := by
  intro n s t wait h
  obtain ⟨-, hcase⟩ := step_cases h
  refine ⟨hcase.consumer_port_eq wait, fun changed => ?_⟩
  rcases hcase.wait_cases wait with held | ⟨rest, turn⟩
  · exact absurd held changed
  · rcases holdUntil_cases turn with ⟨enough, rfl⟩ | ⟨-, rfl⟩
    · exact ⟨rfl, enough, rfl⟩
    · exact absurd rfl changed

end Sys2Proof.Machine

/-! SUPPORT. A run of pushes that lifts a held wait (R250): each push of the producer is legal and finds room,
because the fill is still below the wait's argument, and leaves one frame less to wait for. -/

namespace Sys2Proof.Machine

/-- The records of the pushes, before the producer's other commands. -/
def duePushes (frames : List (List Nat)) (rest : List Command) : List Command :=
  frames.map (fun f => encode (.rbPush .producer f)) ++ rest

/-- A turn of the producer for every push, then one of the consumer. -/
def dueTurns (frames : List (List Nat)) (later : List Agent) : List Agent :=
  List.replicate frames.length .producer ++ .consumer :: later

/-- The consumer is held until `n` frames are in the buffer; the missing ones stand as legal pushes at the head
of the producer's port, and the turns are due for them and then for the consumer. -/
structure State.AwaitsPushes (n : Nat) (frames : List (List Nat)) (rest : List Command) (later : List Agent)
    (s : State) : Prop where
  inv : s.Inv
  init : s.init = true
  wait : s.wait = some n
  fits : n ≤ s.cfg.capacity
  missing : frames.length = n - s.fill
  legal : ∀ f ∈ frames, f.length = s.cfg.frameLen ∧ ∀ v ∈ f, v < 2 ^ 16
  noWrap : 2 ^ s.cfg.cursorW % s.cfg.capacity = 0 ∨ s.wr + frames.length < 2 ^ s.cfg.cursorW
  port : s.ports.of .producer = duePushes frames rest
  turns : s.turns = dueTurns frames later

/-- The state after the producer's turn with the push of `f`, which found room, and the other pushes due. -/
def State.pushTurn (s : State) (f : List Nat) (frames : List (List Nat)) (rest : List Command)
    (later : List Agent) : State :=
  (State.publish
    { s with turns := dueTurns frames later, ports := s.ports.put .producer (duePushes frames rest) }
    (toFrame f)).reply (.rbPush .producer f) (.ok (.pushed true))

section awaitsPushes
variable {s : State} {n : Nat} {f : List Nat} {frames : List (List Nat)} {rest : List Command}
  {later : List Agent}

/-- The first of the missing pushes publishes its frame. -/
theorem State.AwaitsPushes.step_push (h : s.AwaitsPushes n (f :: frames) rest later) :
    step s = .next (s.pushTurn f frames rest later) := by
  obtain ⟨length, range⟩ := h.legal f List.mem_cons_self
  have missing := h.missing
  have noWrap := h.noWrap
  simp only [List.length_cons] at missing noWrap
  have room : s.fill ≠ s.cfg.capacity := by
    have fits := h.fits
    omega
  have below : ¬ s.wouldWrap = true := fun wraps => by
    obtain ⟨divides, top⟩ := State.wouldWrap_iff.mp wraps
    omega
  calc step s
    _ = exec (.rbPush .producer f) { s with
          turns := dueTurns frames later, ports := s.ports.put .producer (duePushes frames rest) } :=
      step_of_command h.inv.cfg h.turns nofun h.port (decode_encode (.rbPush .producer f))
    _ = .next (s.pushTurn f frames rest later) :=
      exec_rbPush_of_room h.init range length (mt State.isFull_iff.mp room) below

/-- After it the consumer waits for the pushes that are left. -/
theorem State.AwaitsPushes.pushTurn (h : s.AwaitsPushes n (f :: frames) rest later) :
    (s.pushTurn f frames rest later).AwaitsPushes n frames rest later where
  inv := stepKeepsTheInvariant _ _ h.inv h.step_push
  init := h.init
  wait := h.wait
  fits := h.fits
  missing := by
    have missing := h.missing
    have cursors := (h.inv.session h.init).cursors
    show frames.length = n - (s.wr + 1 - s.rd)
    simp only [List.length_cons, State.fill] at missing
    omega
  legal g hg := h.legal g (List.mem_cons_of_mem f hg)
  noWrap := by
    have noWrap := h.noWrap
    show 2 ^ s.cfg.cursorW % s.cfg.capacity = 0 ∨ s.wr + 1 + frames.length < 2 ^ s.cfg.cursorW
    simp only [List.length_cons] at noWrap
    omega
  port := Ports.of_put_same s.ports .producer _
  turns := rfl

/-- With no push missing the consumer's turn completes the wait. -/
theorem State.AwaitsPushes.step_lift (h : s.AwaitsPushes n [] rest later) : n ≤ s.fill ∧
    step s = .next (State.reply { s with turns := later, wait := none } (.rbWait .consumer n) (.ok .none)) := by
  have missing : 0 = n - s.fill := h.missing
  have enough : n ≤ s.fill := by omega
  refine ⟨enough, ?_⟩
  rw [step_of_held h.inv.cfg h.wait h.turns]
  exact holdUntil_of_le_fill (s := { s with turns := later }) enough

end awaitsPushes

/-- A run takes its first step and goes on from there. -/
theorem run_succ_of_step {M : Host.Core} {s t : M.State} (h : M.step s = .next t) (k : Nat) :
    M.run (k + 1) s = M.run k t := by
  rw [Host.Core.run, h]

/-- Settles O30: by induction on the missing pushes, the last step being the consumer's turn. -/
theorem pushesLiftAHeldWait : Obligations.PushesLiftAHeldWait := by
  intro n frames rest later s inv init wait fits missing legal noWrap port turns
  have awaits : s.AwaitsPushes n frames rest later :=
    ⟨inv, init, wait, fits, missing, legal, noWrap, port, turns⟩
  clear inv init wait fits missing legal noWrap port turns
  induction frames generalizing s with
  | nil =>
    obtain ⟨enough, step⟩ := awaits.step_lift
    exact ⟨_, run_succ_of_step (M := Sys2Proof.core) step 0, rfl, rfl, rfl, enough⟩
  | cons f frames ih =>
    obtain ⟨t, run, lifted⟩ := ih _ awaits.pushTurn
    exact ⟨t, (run_succ_of_step (M := Sys2Proof.core) awaits.step_push _).trans run, lifted⟩

end Sys2Proof.Machine

/-! SUPPORT. The session start (R33), and the session every run from it stays in. -/

namespace Sys2Proof.Machine

/-- What a `SESSION_RESET` leaves of a configuration with nothing listed, with commands and turns placed. -/
def State.sessionStart (c : Config) (p : Ports) (ts : List Agent) : State :=
  { State.reset with cfg := c, lfsr := BitVec.ofNat 16 c.lfsrSeed, ports := p, turns := ts }

section sessionStart
variable {c : Config} {s t : State}

theorem State.sessionStart_inv (wf : c.WF) (p : Ports) (ts : List Agent) : (sessionStart c p ts).Inv := by
  have ⟨_, _, _, seedPos, seedLt, _⟩ := wf
  have seed := toNat_seed wf
  have nonzero : BitVec.ofNat 16 c.lfsrSeed ≠ 0#16 := fun zero => by
    simp only [zero, BitVec.toNat_zero] at seed
    omega
  exact {
    cfg := wf
    shaped := ⟨seed ▸ seedLt, Memory.wf_nil, nofun, nofun⟩
    session := fun _ => ⟨nonzero, Nat.le_refl 0, Nat.zero_le _, .inr (Nat.two_pow_pos _)⟩
    wait := nofun }

theorem State.sessionStart_queueHistory (c : Config) (p : Ports) (ts : List Agent) :
    (sessionStart c p ts).QueueHistory where
  pushes := rfl
  pops := rfl
  order := rfl
  unread k _ h := absurd h (Nat.not_lt_zero k)
  overflow := iff_of_false nofun nofun

theorem State.sessionStart_patternHistory (c : Config) (p : Ports) (ts : List Agent) :
    (sessionStart c p ts).PatternHistory :=
  ⟨rfl, rfl⟩

/-- No command ends a session: a reset starts another one. -/
theorem ExecStep.init_of_init {i : Instr} (h : ExecStep s i t) (init : s.init = true) : t.init = true := by
  cases h
  case reset => rfl
  all_goals exact init

theorem StepCase.init_of_init (h : StepCase s t) (init : s.init = true) : t.init = true := by
  cases h with
  | idle _ => exact init
  | silent _ _ _ => exact init
  | poll _ _ _ _ _ turn => exact (holdUntil_init turn).trans init
  | issue _ _ _ _ _ _ _ _ _ _ run => exact (exec_cases run).init_of_init init

/-- A session of the configuration `c` whose queue the completed commands account for. -/
structure State.QueueSession (c : Config) (s : State) : Prop where
  inv : s.Inv
  cfg : s.cfg = c
  init : s.init = true
  history : s.QueueHistory

theorem State.QueueSession.step (h : s.QueueSession c) (hstep : Machine.step s = .next t) :
    t.QueueSession c := by
  obtain ⟨-, hcase⟩ := step_cases hstep
  have init := hcase.init_of_init h.init
  exact ⟨hcase.inv h.inv, hcase.cfg_eq.trans h.cfg, init, hcase.queueHistory h.inv (fun _ => h.history) init⟩

end sessionStart

/-- Settles O51: the reset state is the session start of the default configuration. -/
theorem resetMeetsTheInvariant : Obligations.ResetMeetsTheInvariant := by
  intro p ts
  have wf : Config.default.WF := by decide
  exact ⟨State.sessionStart_inv wf p ts, State.sessionStart_queueHistory Config.default p ts,
    State.sessionStart_patternHistory Config.default p ts⟩

/-- Settles O54: the queue's history and the session's bounds hold at the start and every step keeps them. -/
theorem framesLeaveInTheOrderTheyEntered : Obligations.FramesLeaveInTheOrderTheyEntered := by
  intro c p ts k t wf run
  have start : (State.sessionStart c p ts).QueueSession c :=
    ⟨State.sessionStart_inv wf p ts, rfl, rfl, State.sessionStart_queueHistory c p ts⟩
  obtain ⟨inv, cfg, init, history⟩ :=
    run_invariant (M := Sys2Proof.core) (fun _ _ => State.QueueSession.step) k start run
  have session := inv.session init
  exact ⟨history.order ▸ List.take_prefix _ _, history.pushes, history.pops, session.cursors,
    cfg ▸ session.fill_le⟩

/-- `SESSION_RESET` by the host with no wait held comes to its writes (R230). -/
theorem exec_sessionReset {s : State} (wait : s.wait = none) : exec (.sessionReset .host) s =
    finish (.sessionReset .host) .none s.startSession :=
  attempt_pass (by simpa [mem_admittedAgents_sessionReset] using wait)

/-- Settles O35: the two checks in the order of R211, then the writes. -/
theorem sessionResetStartsASession : Obligations.SessionResetStartsASession := by
  intro a s i
  refine ⟨rfl, fun agent => ?_, fun agent held => ?_, fun agent wait => ?_⟩
  · exact exec_of_wrong_agent rfl (mt mem_admittedAgents_sessionReset.mp agent)
  · exact exec_of_admitted_fault rfl (mem_admittedAgents_sessionReset.mpr agent)
      (by rw [resetBusy_eq_some held]; rfl)
  · subst agent
    exact exec_sessionReset wait

/-- Settles O36: a power-on state holds no wait, and the reset writes every element the power-on leaves
unspecified but the slots. -/
theorem resetStateIsASessionStart : Obligations.ResetStateIsASessionStart := by
  intro u cfg slots ports turns
  have start : (State.powerOn u).startSession = State.reset := by
    simp only [State.powerOn, State.startSession, State.reset, cfg, slots, ports, turns]
  rw [exec_sessionReset rfl, start, finish]

/-! SUPPORT. Cursors of `CURSOR_W` bits (R173): a difference below the modulus survives the reduction, and so
does a slot number wherever the cursor has not wrapped or `CAPACITY` divides the modulus. -/

section finiteCursors
variable {c : Config} {rd wr cursor : Nat}

theorem finiteFill_finiteCursor (cursors : rd ≤ wr) (fill : wr - rd < 2 ^ c.cursorW) :
    finiteFill c (finiteCursor c rd) (finiteCursor c wr) = wr - rd := by
  have reduced : rd % 2 ^ c.cursorW < 2 ^ c.cursorW := Nat.mod_lt _ (Nat.two_pow_pos _)
  have congruent : wr % 2 ^ c.cursorW + 2 ^ c.cursorW - rd % 2 ^ c.cursorW ≡ wr - rd [MOD 2 ^ c.cursorW] := by
    refine Nat.ModEq.add_right_cancel' (rd % 2 ^ c.cursorW) ?_
    calc wr % 2 ^ c.cursorW + 2 ^ c.cursorW - rd % 2 ^ c.cursorW + rd % 2 ^ c.cursorW
      _ = wr % 2 ^ c.cursorW + 2 ^ c.cursorW := by omega
      _ ≡ wr [MOD 2 ^ c.cursorW] := by simp [Nat.ModEq]
      _ = wr - rd + rd := (Nat.sub_add_cancel cursors).symm
      _ ≡ wr - rd + rd % 2 ^ c.cursorW [MOD 2 ^ c.cursorW] := (Nat.mod_modEq _ _).symm.add_left _
  exact Eq.trans congruent (Nat.mod_eq_of_lt fill)

theorem finiteSlot_finiteCursor
    (h : 2 ^ c.cursorW % c.capacity = 0 ∨ cursor < 2 ^ c.cursorW) :
    finiteSlot c (finiteCursor c cursor) = cursor % c.capacity := by
  rcases h with divides | below
  · exact Nat.mod_mod_of_dvd cursor (Nat.dvd_of_mod_eq_zero divides)
  · exact congrArg (· % c.capacity) (Nat.mod_eq_of_lt below)

end finiteCursors

/-- Settles O31: the fill is at most `CAPACITY`, which is below the modulus, and the read cursor has not passed
the write cursor. -/
theorem finiteCursorsAgree : Obligations.FiniteCursorsAgree := by
  intro s hs init
  obtain ⟨-, -, -, -, -, -, -, -, width⟩ := hs.cfg
  have session := hs.session init
  refine ⟨?_, ?_, ?_⟩
  · exact finiteFill_finiteCursor session.cursors (session.fill_le.trans_lt width)
  · exact finiteSlot_finiteCursor session.noWrap
  · exact finiteSlot_finiteCursor (session.noWrap.imp_right session.cursors.trans_lt)

/-! SUPPORT. The bits the generator shifts out (R152): bit 0 after `k` updates is bit `k` now, as long as the
bit that enters has not come down to it. -/

section lfsrOutput
variable {width j k : Nat} {v : Sample}

theorem getLsbD_iterate_lfsrStep (h : j + k < width) :
    ((lfsrStep width)^[k] v).getLsbD j = v.getLsbD (j + k) := by
  induction k generalizing j with
  | zero => rfl
  | succ k ih =>
    rw [Function.iterate_succ_apply', getLsbD_lfsrStep_below (by omega), ih (by omega),
      Nat.succ_add_eq_add_succ]

theorem iterate_lfsrStep_lt (hw : width = 12 ∨ width = 16) (hv : v.toNat < 2 ^ width) (n : Nat) :
    ((lfsrStep width)^[n] v).toNat < 2 ^ width := by
  have maps : Set.MapsTo (lfsrStep width) {u | u.toNat < 2 ^ width} {u | u.toNat < 2 ^ width} :=
    fun _ => lfsrStep_lt hw
  exact maps.iterate n hv

end lfsrOutput

/-- Settles O20: the next 12 bits out are the register's bits now, and the one after them is the feedback bit. -/
theorem lfsrBitsFollowTheRecurrence : Obligations.LfsrBitsFollowTheRecurrence := by
  intro seed n hseed out
  have register {k : Nat} (hk : k < 12) : out (n + k) = ((lfsrStep 12)^[n] seed).getLsbD k := by
    simp only [out]
    rw [Nat.add_comm, Function.iterate_add_apply, getLsbD_iterate_lfsrStep (by omega), Nat.zero_add]
  have entered : out (n + 12) = (lfsrStep 12 ((lfsrStep 12)^[n] seed)).getLsbD 11 := by
    simp only [out]
    rw [Nat.add_comm, Function.iterate_add_apply, Function.iterate_succ_apply,
      getLsbD_iterate_lfsrStep (by decide)]
  rw [entered, getLsbD_lfsrStep_top (.inl rfl) (iterate_lfsrStep_lt (.inl rfl) hseed n), lfsrFeedback,
    ← register (k := 0) (by decide), ← register (k := 3) (by decide), ← register (k := 9) (by decide),
    ← register (k := 10) (by decide), Nat.add_zero]

end Sys2Proof.Machine

/-! SUPPORT. The records that decode to nothing (R83): none of the reserved code, and every code has one that
does. -/

namespace Sys2Proof

section decodeTotal
variable {a : Agent} {c : Command}

/-- A record is refused for its operands only, which the reserved code's row does not look at. -/
theorem decode_error_cases {e : DecodeError} (h : decode a c = .error e) :
    e = .operandTypes c.op ∧ c.op ≠ 0xF#4 := by
  refine ⟨?_, fun reserved => ?_⟩
  · unfold decode at h
    split at h
    case h_17 =>
      cases h
      rfl
    all_goals cases h
  · have decoded : decode a c = .ok (.reserved0xF a c.operands) := by
      obtain ⟨op, operands⟩ := c
      subst reserved
      rfl
    exact nomatch h.symm.trans decoded

/-- The table's own record of a code decodes, whoever issues it. -/
theorem decode_tableCommand (a : Agent) (op : OpCode) : ∃ i, decode a (tableCommand op) = .ok i := by
  have total : ∀ op : OpCode, (decode a (tableCommand op)).toOption.isSome = true := by
    cases a <;> decide
  cases h : decode a (tableCommand op) with
  | ok i => exact ⟨i, rfl⟩
  | error e => exact absurd (total op) (by simp [h, Except.toOption])

end decodeTotal

/-- Settles O57: a row that matches keeps the record's code and agent, no row matching is the operands' fault,
and the opcode table has a record of every code. -/
theorem decodingIsTotal : Obligations.DecodingIsTotal := by
  intro a op
  refine ⟨fun operands => ?_, _, decode_tableCommand a op⟩
  cases h : decode a ⟨op, operands⟩ with
  | ok i =>
    obtain ⟨record, agent⟩ := encode_of_decode h
    exact .inl ⟨i, rfl, congrArg Command.op record, agent⟩
  | error e =>
    obtain ⟨rfl, code⟩ := decode_error_cases h
    exact .inr ⟨rfl, code⟩

end Sys2Proof
